-- ==== Sys2Proof/Word.lean ====
section
/-! DEFINITION. The widths of the block (00_scope.md R5, R7): a value is 256 bits, a limb is 128 bits. -/

namespace Sys2Proof

/-- A 256-bit value (R5 `W`, R7). -/
abbrev Word := BitVec 256

/-- A 128-bit limb (R5 `LIMB`). -/
abbrev Limb := BitVec 128

/-- The 8-bit command word, whose one field is `OPC` (R5 `OPW`, R36). -/
abbrev Opcode := BitVec 8

/-- A one-bit port, flag or status field. -/
abbrev Bit := BitVec 1

end Sys2Proof
end

