-- ==== Sys2Proof/Syntax.lean ====
section
/-! DEFINITION. The commands of the block: as the request port carries them (`Command`, R36) and as the nine
operations of the opcode map (`Instr`, R3, R38). -/

namespace Sys2Proof

/-- A command of format `CMD8` as it stands on the request ports (R13, R36): the command word and four limbs. -/
structure Command where
  /-- `req_op` -/
  op : Opcode
  /-- `req_a_lo` -/
  aLo : Limb
  /-- `req_a_hi` -/
  aHi : Limb
  /-- `req_b_lo` -/
  bLo : Limb
  /-- `req_b_hi` -/
  bHi : Limb
  deriving DecidableEq, Repr, Inhabited

/-- The nine operations (R3, R38), with the operands each one reads. A unary operation has the single operand `A`
(R41, R42); every 256-bit value is a legal operand of every operation (R37), which the operands' type says. -/
inductive Instr where
  /-- OPC 0x01, R46 -/
  | floorIntermediate (a : Word)
  /-- OPC 0x02, R47 -/
  | floor (a : Word)
  /-- OPC 0x03, R48 -/
  | halfScaling (a : Word)
  /-- OPC 0x04, R49 -/
  | doubleScaling (a : Word)
  /-- OPC 0x05, R53 -/
  | add (a b : Word)
  /-- OPC 0x06, R54 -/
  | sub (a b : Word)
  /-- OPC 0x07, R55 -/
  | diffAndSign (a b : Word)
  /-- OPC 0x08, R56 -/
  | mul (a b : Word)
  /-- OPC 0x09, R57 -/
  | div (a b : Word)
  deriving DecidableEq, Repr

end Sys2Proof
end

