-- ==== Sys2Proof/Machine/Operands.lean ====
section
/-! DEFINITION. Operand transport (30_encoding.md R37, 20_memory.md R25, R26): the one operand form of the block, a
256-bit value as two limbs, low limb on the `_lo` port. -/

namespace Sys2Proof.Machine

/-- The 256-bit value of two limbs: `zext_256(lo) + zext_256(hi) * 2^128` (R37). -/
def assemble (lo hi : Limb) : Word := BitVec.ofNat 256 (lo.toNat + hi.toNat * 2 ^ 128)

/-- The low limb `v[127:0]` (R7, R17). -/
def lowLimb (v : Word) : Limb := v.extractLsb' 0 128

/-- The high limb `v[255:128]` (R7, R17). -/
def highLimb (v : Word) : Limb := v.extractLsb' 128 128

/-- Operand `A` of a command (R37). -/
def operandA (c : Command) : Word := assemble c.aLo c.aHi

/-- Operand `B` of a command (R37). -/
def operandB (c : Command) : Word := assemble c.bLo c.bHi

/-- The command with these operands on its limb ports (R36, R37). -/
def commandOf (op : Opcode) (a b : Word) : Command :=
  { op := op, aLo := lowLimb a, aHi := highLimb a, bLo := lowLimb b, bHi := highLimb b }

/-- The command whose bits are `w`, numbered on from the command word: `OPC` is bits 7..0, then the limbs in the order
of R36, `req_a_lo`, `req_a_hi`, `req_b_lo`, `req_b_hi`; bits from `nbits` on are 0. The spec gives the operands no bit
numbers (log entry 5, DESIGN CHOICE, safe): the opcode table numbers only the command word. -/
def commandOfBits (nbits w : Nat) : Command :=
  let v := w % 2 ^ nbits
  { op := BitVec.ofNat 8 v
    aLo := BitVec.ofNat 128 (v >>> 8)
    aHi := BitVec.ofNat 128 (v >>> 136)
    bLo := BitVec.ofNat 128 (v >>> 264)
    bHi := BitVec.ofNat 128 (v >>> 392) }

end Sys2Proof.Machine
end

