-- ==== Sys2Proof/WellFormed.lean ====
section
/-! DEFINITION. Which commands are well formed. The block refuses no operand value (R37) and has one format (R40), so
the checks are about the command word: `OPC` 0x00 is illegal, and so is everything from 0x0A on (R38, R39). An `Instr`
cannot be ill formed: its constructors are the nine operations and its operands are 256-bit values. -/

namespace Sys2Proof

/-- `OPC` 0x00 is illegal, "so that an idle or undriven command bus held at zero never names an operation" (R39). -/
def Command.namesSomething (c : Command) : Bool := c.op != 0x00#8

/-- Value 0x0A is reserved for the source's `bounded_pow`, which this hardware does not implement (R39, R4). -/
def Command.notBoundedPow (c : Command) : Bool := c.op != 0x0A#8

/-- No `OPC` above 0x0A is assigned: there are no hints, no no-operation and no custom space (R39). -/
def Command.assigned (c : Command) : Bool := c.op.toNat ≤ 0x0A

/-- A command is well formed when its `OPC` is one of rule R38: 0x01 to 0x09. -/
def Command.wellFormed (c : Command) : Bool := c.namesSomething && c.notBoundedPow && c.assigned

/-- Whether the command's `OPC` is one of the unary operations, which ignore B (R41). -/
def Command.unary (c : Command) : Bool := 0x01 ≤ c.op.toNat && c.op.toNat ≤ 0x04

/-- The command as an assembler writes it: "B is written as 0 in encodings" of a unary operation (R42). -/
def Command.canonical (c : Command) : Command := if c.unary then { c with bLo := 0, bHi := 0 } else c

end Sys2Proof
end

