-- ==== Sys2Proof/Decode.lean ====
section
/-! DEFINITION. The decoder (R38, R39), total on any command and rejecting by name, and after it the encoder (R36,
R38, R42), written from the same table. -/

namespace Sys2Proof

/-- Why a command word names no operation (R39). Each of them completes with `IllegalOpcode`. -/
inductive DecodeReject where
  /-- `OPC` 0x00 -/
  | zeroOpcode
  /-- `OPC` 0x0A, held for the source's `bounded_pow` -/
  | reservedBoundedPow
  /-- `OPC` 0x0B to 0xFF -/
  | unassignedOpcode (opc : Opcode)
  deriving DecidableEq, Repr

open Sys2Proof.Machine in
/-- The opcode map (R38): the operation the command word selects, with the operands it reads. The operands are not
examined: only `OPC` decides (R39, R65), and a unary operation drops B (R41; log
entry 12, DEDUCED, safe). -/
def decode (c : Command) : Except DecodeReject Instr :=
  match c.op.toNat with
  | 0x00 => .error .zeroOpcode
  | 0x01 => .ok (.floorIntermediate (operandA c))
  | 0x02 => .ok (.floor (operandA c))
  | 0x03 => .ok (.halfScaling (operandA c))
  | 0x04 => .ok (.doubleScaling (operandA c))
  | 0x05 => .ok (.add (operandA c) (operandB c))
  | 0x06 => .ok (.sub (operandA c) (operandB c))
  | 0x07 => .ok (.diffAndSign (operandA c) (operandB c))
  | 0x08 => .ok (.mul (operandA c) (operandB c))
  | 0x09 => .ok (.div (operandA c) (operandB c))
  | 0x0A => .error .reservedBoundedPow
  | _ => .error (.unassignedOpcode c.op)

/-- The `OPC` of an operation (R38). -/
def opcodeOf : Instr → Opcode
  | .floorIntermediate _ => 0x01#8
  | .floor _ => 0x02#8
  | .halfScaling _ => 0x03#8
  | .doubleScaling _ => 0x04#8
  | .add _ _ => 0x05#8
  | .sub _ _ => 0x06#8
  | .diffAndSign _ _ => 0x07#8
  | .mul _ _ => 0x08#8
  | .div _ _ => 0x09#8

/-- The operand values an assembler puts on the A and B ports (R42: a unary operation's B is written as 0). -/
def operandsOf : Instr → Word × Word
  | .floorIntermediate a => (a, 0)
  | .floor a => (a, 0)
  | .halfScaling a => (a, 0)
  | .doubleScaling a => (a, 0)
  | .add a b => (a, b)
  | .sub a b => (a, b)
  | .diffAndSign a b => (a, b)
  | .mul a b => (a, b)
  | .div a b => (a, b)

/-- The command of an operation (R36, R37, R38). -/
def encode (i : Instr) : Command := Sys2Proof.Machine.commandOf (opcodeOf i) (operandsOf i).1 (operandsOf i).2

/-- The instruction read from a command whose bits are `w`, numbered as the opcode table numbers them. -/
def decodeTableWord (nbits w : Nat) : Option Instr := (decode (Sys2Proof.Machine.commandOfBits nbits w)).toOption

end Sys2Proof
end

