-- ==== Sys2Proof/Config.lean ====
section
/-! DEFINITION. What is fixed for the machine (R5, R6) and the values the spec leaves open (R5 `LATENCY`, R81). The
open values are constants without a body: nothing can be proved of what they are. -/

namespace Sys2Proof.Config

/-- The ISA identification string (R3, D1). -/
def isaName : String := "FXP256-CORE/v7"

/-- `SCALE` = 10^18, the hardwired fixed-point scale (R5, R6). -/
def scale : Nat := 10 ^ 18

/-- `HALF_SCALE` = 10^9, hardwired (R5, R6). -/
def halfScale : Nat := 10 ^ 9

/-- `MAXV` = 2^256 − 1, the largest value (R5). -/
def maxValue : Nat := 2 ^ 256 - 1

/-- `T` = `MAXV // SCALE`, the largest value whose product with `SCALE` is in range (40_scaling.md). -/
def scaleThreshold : Nat := maxValue / scale

/-- `MAX_OUTSTANDING`: at most one command is in flight (R5, R21). -/
def maxOutstanding : Nat := 1

/-- FREE VALUE (R5, R20, R86): how many edges beyond one the command with these operands takes, at the draw of this
number. `LATENCY` may differ per command and may depend on the opcode and the operands. Log entry 4, DESIGN CHOICE:
unsafe for a claim that compares the timing of two runs, safe otherwise. -/
opaque extraLatency : Nat → Opcode → Word → Word → Nat

/-- `LATENCY` (R5, R86): open, and at least 1. -/
def latency (draw : Nat) (op : Opcode) (a b : Word) : Nat := extraLatency draw op a b + 1

/-- FREE VALUE (R81, U8; log entry 3): `RES_LO` before the first reset edge. -/
opaque unspecifiedResLo : Nat → Limb

/-- FREE VALUE (R81, U8; log entry 3): `RES_HI` before the first reset edge. -/
opaque unspecifiedResHi : Nat → Limb

/-- FREE VALUE (R81, U8; log entry 3): `SIGN` before the first reset edge. -/
opaque unspecifiedSign : Nat → Bit

/-- FREE VALUE (R81, U8; log entry 3): `STATUS` before the first reset edge. -/
opaque unspecifiedStatus : Nat → BitVec 8

/-- FREE VALUE (R81, U8; log entry 3): `PEND` before the first reset edge. -/
opaque unspecifiedPend : Nat → Option Command

/-- FREE VALUE (R81, U8; log entry 3): `rsp_done` before the first reset edge. -/
opaque unspecifiedDone : Nat → Bit

/-- FREE VALUE (R81, U8; log entry 3): the edges left of whatever is pending before the first reset edge. -/
opaque unspecifiedEdgesLeft : Nat → Nat

end Sys2Proof.Config
end

