-- ==== Sys2Proof/Machine/State.lean ====
section
/-! DEFINITION. The state of the block as plain data (10_state.md R15 to R18, R22), the reasons a step or a host read
stops, and the state after reset (70_reset_and_hazards.md R78). -/

namespace Sys2Proof.Machine

/-- The causes of 60_exceptions.md R61. Their codes are in Flags.lean. -/
inductive Cause where
  /-- "an add, multiply, or scale-up would exceed the 256-bit range" -/
  | overflow
  /-- "an unchecked subtraction (`sub`) would go negative" -/
  | underflow
  /-- "divisor is zero" -/
  | divisionByZero
  /-- reserved: never raised (R61, C10) -/
  | outOfBounds
  /-- the `OPC` is not in R38 (R39) -/
  | illegalOpcode
  deriving DecidableEq, Repr

/-- The value of `Exec(op, A, B)` (00_scope.md R9, R10): a result with its sign bit, or a fault's cause. -/
inductive CmdOutcome where
  /-- `result(r, s)` -/
  | result (r : Word) (s : Bit)
  /-- `raise c()` -/
  | raised (c : Cause)
  deriving DecidableEq, Repr

/-- What the host presents on the input pins at one rising edge of `clk` (R13, R14). -/
structure PinSample where
  /-- `rst` -/
  rst : Bit
  /-- `req_valid` -/
  reqValid : Bit
  /-- `req_op` and the four operand limbs -/
  cmd : Command
  deriving DecidableEq, Repr

/-- Pins of a host that does nothing: no reset, no request, an undriven command bus at zero (R39). -/
def PinSample.idle : PinSample := { rst := 0, reqValid := 0, cmd := ⟨0, 0, 0, 0, 0⟩ }

/-- What the block drives on its output pins during one clock cycle (R13). -/
structure PinOutputs where
  /-- `req_ready` -/
  reqReady : Bit
  /-- `rsp_done` -/
  rspDone : Bit
  /-- `rsp_r_lo` -/
  rLo : Limb
  /-- `rsp_r_hi` -/
  rHi : Limb
  /-- `rsp_sign` -/
  sign : Bit
  /-- `rsp_status` -/
  status : BitVec 8
  deriving DecidableEq, Repr

/-- The state: the registers of R15, the `rsp_done` pin (R21), and the model's own fields (INVENTORY.md). -/
structure State where
  /-- `RES_LO` (R15, R17) -/
  resLo : Limb
  /-- `RES_HI` (R15, R17) -/
  resHi : Limb
  /-- `SIGN` (R15, R18) -/
  sign : Bit
  /-- `STATUS` (R15, R16); its fields are read and written through the accessors of Flags.lean -/
  status : BitVec 8
  /-- `PEND` (R15, R22): the sampled command, or empty -/
  pend : Option Command
  /-- the `rsp_done` pin in the current cycle (R21; log entry 6, DEDUCED, safe) -/
  rspDone : Bit
  /-- the model's own: rising edges to come until the pending command completes (R20; log entries 1, 4) -/
  edgesLeft : Nat
  /-- the model's own: the number of the next draw of a free value (log entries 1, 3, 4) -/
  draws : Nat
  /-- the model's own: whether a reset edge has happened since power-on (R81; log entry 3) -/
  resetSeen : Bool
  /-- the host's pins at the coming edges, the next one first; the empty list is an idle host (log entry 2,
  DESIGN CHOICE, safe) -/
  inputs : List PinSample
  deriving DecidableEq, Repr

/-- The reason a host read has no value. No step faults: a fault of a command is a next state (R62). -/
inductive Fault where
  /-- Raised by `readResult`: the host used `RES` or `SIGN` while `VALID = 0`, which R82 and U7 make a model fault.
  Safe: the hardware drives a stale value there, and no claim can rest on it. -/
  | resultNotValid
  deriving DecidableEq, Repr

/-- The reason a step has no meaning. -/
inductive Refusal where
  /-- An instruction without a meaning, by its mnemonic. No arm of this model raises it. Safe. -/
  | notModelled (mnemonic : String)
  /-- Raised by a step: the host presents a command before the first reset edge (R81, U8: "a run that issues a command
  before any reset is `refuse`d"). Safe: the block's behaviour there is unspecified. -/
  | commandBeforeReset
  deriving DecidableEq, Repr

/-- The state after a reset edge (R78), at the start of a run (U8), with no host behaviour listed. The
model's own fields start at DESIGN CHOICE values (log entries 1 and 2). -/
def State.reset : State :=
  { resLo := 0, resHi := 0, sign := 0, status := 0x00, pend := none, rspDone := 0
    edgesLeft := 0, draws := 0, resetSeen := true, inputs := [] }

end Sys2Proof.Machine
end

