-- ==== Sys2Proof/Machine/Flags.lean ====
section
/-! DEFINITION. The fields of `STATUS` (R16), the cause codes (R61), the overflow-trap comparator (R9, R63) and the
limb datapath with its carry, borrow and comparison signals (41_additive.md R50 to R52). -/

namespace Sys2Proof.Machine

/-- `STATUS.CAUSE`, bits [3:0] (R16). -/
def causeField (st : BitVec 8) : BitVec 4 := st.extractLsb' 0 4

/-- `STATUS.VALID`, bit [4] (R16). -/
def validField (st : BitVec 8) : Bit := st.extractLsb' 4 1

/-- `STATUS.BUSY`, bit [5] (R16). -/
def busyField (st : BitVec 8) : Bit := st.extractLsb' 5 1

/-- `STATUS[7:6]`, reserved (R16). -/
def reservedField (st : BitVec 8) : BitVec 2 := st.extractLsb' 6 2

/-- The `STATUS` byte with these fields, `BUSY << 5 | VALID << 4 | CAUSE`, the reserved bits 0
(R16; log entry 11, DEDUCED, safe). -/
def packStatus (busy valid : Bit) (cause : BitVec 4) : BitVec 8 :=
  BitVec.ofNat 8 (busy.toNat * 2 ^ 5 + valid.toNat * 2 ^ 4 + cause.toNat)

/-- The code of a cause (R61). -/
def causeCode : Cause → BitVec 4
  | .overflow => 0x1
  | .underflow => 0x2
  | .divisionByZero => 0x3
  | .outOfBounds => 0x4
  | .illegalOpcode => 0x5

/-- `check256(x)` (R9, R63): at or above 2^256 the command raises `Overflow` and nothing after it executes; otherwise
it goes on with the exact value. -/
def check256 (x : Nat) (andThen : Word → CmdOutcome) : CmdOutcome :=
  if 2 ^ 256 ≤ x then .raised .overflow else andThen (BitVec.ofNat 256 x)

/-- The magnitude comparator (R52): `A < B`, most significant limb first. -/
def limbLess (a b : Word) : Bool :=
  decide (highLimb a < highLimb b) || (decide (highLimb a = highLimb b) && decide (lowLimb a < lowLimb b))

/-- The limb adder's `sum` and `carry_out` (R50). -/
def limbAdd (a b : Word) : Word × Bit :=
  let t0 := (lowLimb a).toNat + (lowLimb b).toNat
  let s0 := t0 % 2 ^ 128
  let c0 := t0 / 2 ^ 128
  let t1 := (highLimb a).toNat + (highLimb b).toNat + c0
  let s1 := t1 % 2 ^ 128
  let c1 := t1 / 2 ^ 128
  (BitVec.ofNat 256 (s0 + s1 * 2 ^ 128), BitVec.ofNat 1 c1)

/-- The limb subtractor's `diff` and `borrow_out` (R51). Where R51 subtracts and then adds `w * 2^128`, the addition
stands first, so that the exact natural-number difference is the spec's (log entry 10, DEDUCED, safe). -/
def limbSub (a b : Word) : Word × Bit :=
  let w0 := if (lowLimb a).toNat < (lowLimb b).toNat then 1 else 0
  let d0 := (lowLimb a).toNat + w0 * 2 ^ 128 - (lowLimb b).toNat
  let w1 := if (highLimb a).toNat < (highLimb b).toNat + w0 then 1 else 0
  let d1 := (highLimb a).toNat + w1 * 2 ^ 128 - (highLimb b).toNat - w0
  (BitVec.ofNat 256 (d0 + d1 * 2 ^ 128), BitVec.ofNat 1 w1)

end Sys2Proof.Machine
end

