-- ==== Sys2Proof/Machine/Ops.lean ====
section
/-! DEFINITION. The operations every edge of the machine is made of (10_state.md R19 to R22, 60_exceptions.md R62,
70_reset_and_hazards.md R77 to R81): writing a result, taking a fault, accepting a command, resetting. A fault saves
nothing and there is no return from one (R62, R68), so no such operation stands beside `takeFault`. -/

namespace Sys2Proof.Machine

/-- A completion without fault (R20): the result's limbs, the sign, `CAUSE <- 0`, `VALID <- 1`, `BUSY <- 0`,
`PEND <- empty`; `rsp_done` is 1 in the cycle that begins here (R21). -/
def writeResult (r : Word) (sg : Bit) (s : State) : State :=
  { s with
    resLo := lowLimb r, resHi := highLimb r, sign := sg
    status := packStatus 0 1 0
    pend := none, rspDone := 1, edgesLeft := 0 }

/-- Taking a fault (R20, R62): `RES_LO`, `RES_HI` and `SIGN` keep their values, `CAUSE <- code`, `VALID <- 0`,
`BUSY <- 0`, `PEND <- empty`, and `rsp_done` pulses. Nothing else changes: no vector, no saved state, no mode. -/
def takeFault (c : Cause) (s : State) : State :=
  { s with status := packStatus 0 0 (causeCode c), pend := none, rspDone := 1, edgesLeft := 0 }

/-- Completion of a command with the outcome `Exec` gives it (R20). -/
def complete (o : CmdOutcome) (s : State) : State :=
  match o with
  | .result r sg => writeResult r sg s
  | .raised c => takeFault c s

/-- The edges from the acceptance of a command to its completion, at the state's next draw (R20, R86). -/
def drawnLatency (s : State) (c : Command) : Nat := Config.latency s.draws c.op (operandA c) (operandB c)

/-- Acceptance (R19): the command goes into `PEND`, `BUSY <- 1`, `VALID <- 0`, `CAUSE <- 0`; `RES` and `SIGN` keep
their values. Its `LATENCY` is drawn here (R20). -/
def accept (c : Command) (s : State) : State :=
  { s with
    status := packStatus 1 0 0
    pend := some c
    edgesLeft := drawnLatency s c
    draws := s.draws + 1 }

/-- A reset edge (R77, R78, R79): every register at its reset value, a pending command discarded, `rsp_done` 0. -/
def resetEdge (s : State) : State :=
  { s with
    resLo := 0, resHi := 0, sign := 0, status := packStatus 0 0 0
    pend := none, rspDone := 0, edgesLeft := 0, resetSeen := true }

/-- An edge without reset before the first reset edge: no register has a specified value (R81, U8). -/
def unspecifiedEdge (s : State) : State :=
  { s with
    resLo := Config.unspecifiedResLo s.draws
    resHi := Config.unspecifiedResHi s.draws
    sign := Config.unspecifiedSign s.draws
    status := Config.unspecifiedStatus s.draws
    pend := Config.unspecifiedPend s.draws
    rspDone := Config.unspecifiedDone s.draws
    edgesLeft := Config.unspecifiedEdgesLeft s.draws
    draws := s.draws + 1 }

/-- The block after power-on and before any reset edge (R81), with the pins the host will present. -/
def powerOn (pins : List PinSample) : State :=
  { resLo := Config.unspecifiedResLo 0
    resHi := Config.unspecifiedResHi 0
    sign := Config.unspecifiedSign 0
    status := Config.unspecifiedStatus 0
    pend := Config.unspecifiedPend 0
    rspDone := Config.unspecifiedDone 0
    edgesLeft := Config.unspecifiedEdgesLeft 0
    draws := 1
    resetSeen := false
    inputs := pins }

/-- What the pins show `n` edges from now: the listed sample, or an idle host past the list (log entry 2). -/
def pinsAt (s : State) (n : Nat) : PinSample := s.inputs.getD n PinSample.idle

/-- What an edge does whatever happens at it: the pins of this edge are past, and the `rsp_done` pulse, which lasts one
cycle, is over (R14, R21). -/
def clockTick (s : State) : State := { s with inputs := s.inputs.tail, rspDone := 0 }

/-- An edge at which the pending command does not complete yet (R20). -/
def countEdge (s : State) : State := { s with edgesLeft := s.edgesLeft - 1 }

/-- `req_ready` (R21): 1 exactly when `rst = 0` and `STATUS.BUSY = 0`. -/
def reqReady (rst : Bit) (s : State) : Bit := if rst = 0 ∧ busyField s.status = 0 then 1 else 0

/-- The command pending and about to complete at the next edge, at which the pins are idle: where the block takes the
command it runs from (R22, R84: it executes from `PEND`). -/
def placeCommand (c : Command) (s : State) : State :=
  { s with
    status := packStatus 1 0 0
    pend := some c
    edgesLeft := 1
    resetSeen := true
    inputs := PinSample.idle :: s.inputs }

end Sys2Proof.Machine
end

