-- ==== Sys2Proof/Machine/Additive.lean ====
section
/-! DEFINITION. The additive operations (41_additive.md R53 to R55), from their 256-bit rules; DIFF_AND_SIGN compares
limb-wise as its rule does. The limb adder and subtractor of R50, R51 are in Flags.lean. -/

namespace Sys2Proof.Machine

/-- `r = check256(A + B)` (R53). -/
def evalAdd (a b : Word) : CmdOutcome :=
  check256 (a.toNat + b.toNat) fun r => .result r 0

/-- `if A < B: raise Underflow()`, else `r = A - B` (R54). -/
def evalSub (a b : Word) : CmdOutcome :=
  if a.toNat < b.toNat then .raised .underflow
  else .result (BitVec.ofNat 256 (a.toNat - b.toNat)) 0

/-- `if lt: result(B - A, 1) else: result(A - B, 0)`, `lt` from the comparator (R55, R52). -/
def evalDiffAndSign (a b : Word) : CmdOutcome :=
  if limbLess a b then .result (BitVec.ofNat 256 (b.toNat - a.toNat)) 1
  else .result (BitVec.ofNat 256 (a.toNat - b.toNat)) 0

/-- ADD (R53): Overflow exactly when `A + B >= 2^256`. -/
def execAdd (a b : Word) (s : State) : Host.Outcome State Fault Refusal :=
  .next (complete (evalAdd a b) s)

/-- SUB (R54): Underflow exactly when `A < B` (C1). -/
def execSub (a b : Word) (s : State) : Host.Outcome State Fault Refusal :=
  .next (complete (evalSub a b) s)

/-- DIFF_AND_SIGN (R55): never faults. -/
def execDiffAndSign (a b : Word) (s : State) : Host.Outcome State Fault Refusal :=
  .next (complete (evalDiffAndSign a b) s)

end Sys2Proof.Machine
end

