-- ==== Sys2Proof/Machine/Multiplicative.lean ====
section
/-! DEFINITION. The multiply-divide unit with half-scale rebalancing (42_multiplicative.md R56, R57). -/

namespace Sys2Proof.Machine

/-- `r = check256((A // HALF_SCALE) * (B // HALF_SCALE))` (R56). -/
def evalMul (a b : Word) : CmdOutcome :=
  check256 (a.toNat / Config.halfScale * (b.toNat / Config.halfScale)) fun r => .result r 0

/-- `if B = 0: raise DivisionByZero()`, then `n = check256(A * SCALE)`, `r = n // B` (R57, R65). -/
def evalDiv (a b : Word) : CmdOutcome :=
  if b.toNat = 0 then .raised .divisionByZero
  else check256 (a.toNat * Config.scale) fun n => .result (BitVec.ofNat 256 (n.toNat / b.toNat)) 0

/-- MUL (R56): Overflow exactly when the half-scaled product is at or above 2^256. -/
def execMul (a b : Word) (s : State) : Host.Outcome State Fault Refusal :=
  .next (complete (evalMul a b) s)

/-- DIV (R57): DivisionByZero when `B = 0`, otherwise Overflow when the scaled dividend is at or above 2^256. -/
def execDiv (a b : Word) (s : State) : Host.Outcome State Fault Refusal :=
  .next (complete (evalDiv a b) s)

end Sys2Proof.Machine
end

