-- ==== Sys2Proof/Machine/Scaling.lean ====
section
/-! DEFINITION. The scaling and truncation unit (40_scaling.md R44 to R49). Each `eval` is the rule's pseudocode on
unbounded integers (R8); every division truncates, which is the floor (R45). -/

namespace Sys2Proof.Machine

/-- `r = A // SCALE` (R46). -/
def evalFloorIntermediate (a : Word) : CmdOutcome :=
  .result (BitVec.ofNat 256 (a.toNat / Config.scale)) 0

/-- `r = (A // SCALE) * SCALE` (R47). -/
def evalFloor (a : Word) : CmdOutcome :=
  .result (BitVec.ofNat 256 (a.toNat / Config.scale * Config.scale)) 0

/-- `r = A // HALF_SCALE` (R48). -/
def evalHalfScaling (a : Word) : CmdOutcome :=
  .result (BitVec.ofNat 256 (a.toNat / Config.halfScale)) 0

/-- `r = check256(A * SCALE)` (R49). -/
def evalDoubleScaling (a : Word) : CmdOutcome :=
  check256 (a.toNat * Config.scale) fun r => .result r 0

/-- FLOOR_INTERMEDIATE (R46). -/
def execFloorIntermediate (a : Word) (s : State) : Host.Outcome State Fault Refusal :=
  .next (complete (evalFloorIntermediate a) s)

/-- FLOOR (R47). -/
def execFloor (a : Word) (s : State) : Host.Outcome State Fault Refusal :=
  .next (complete (evalFloor a) s)

/-- HALF_SCALING (R48). -/
def execHalfScaling (a : Word) (s : State) : Host.Outcome State Fault Refusal :=
  .next (complete (evalHalfScaling a) s)

/-- DOUBLE_SCALING (R49): Overflow exactly when `A * SCALE >= 2^256`. -/
def execDoubleScaling (a : Word) (s : State) : Host.Outcome State Fault Refusal :=
  .next (complete (evalDoubleScaling a) s)

end Sys2Proof.Machine
end

