-- ==== Sys2Proof/Machine/Dispatch.lean ====
section
/-! DEFINITION. One arm per operation: the completion of the command (R20) from the state at its completion edge. -/

namespace Sys2Proof.Machine

def exec (i : Instr) (s : State) : Host.Outcome State Fault Refusal :=
  match i with
  | .floorIntermediate a => Sys2Proof.Machine.execFloorIntermediate a s
  | .floor a => Sys2Proof.Machine.execFloor a s
  | .halfScaling a => Sys2Proof.Machine.execHalfScaling a s
  | .doubleScaling a => Sys2Proof.Machine.execDoubleScaling a s
  | .add a b => Sys2Proof.Machine.execAdd a b s
  | .sub a b => Sys2Proof.Machine.execSub a b s
  | .diffAndSign a b => Sys2Proof.Machine.execDiffAndSign a b s
  | .mul a b => Sys2Proof.Machine.execMul a b s
  | .div a b => Sys2Proof.Machine.execDiv a b s

end Sys2Proof.Machine
end

