-- ==== Sys2Proof/Machine/Sequencer.lean ====
section
/-! DEFINITION. One rising edge of `clk` (10_state.md R14, R19 to R22, 70_reset_and_hazards.md R77 to R84). -/

namespace Sys2Proof.Machine

/-- The completion of the pending command (R20): the operation its `OPC` selects, or the fault `IllegalOpcode` of
every `OPC` that selects none (R39). -/
def runCommand (c : Command) (s : State) : Host.Outcome State Fault Refusal :=
  match decode c with
  | .ok i => exec i s
  | .error _ => .next (takeFault .illegalOpcode s)

/-- An edge with `rst = 0` while `BUSY = 0`: a request is accepted, and otherwise the registers hold (R19, R76). -/
def idleEdge (p : PinSample) (s : State) : Host.Outcome State Fault Refusal :=
  if p.reqValid = 1 then .next (accept p.cmd s) else .next s

/-- An edge with `rst = 0` while `BUSY = 1`: the command in `PEND` completes when its `LATENCY` edges are over (R20).
The request pins have no effect (R19, R83). `BUSY = 1` with an empty `PEND` cannot arise from reset; nothing completes
there, since R23's Complete requires a pending command (log entry 7, DESIGN CHOICE, safe). -/
def pendingEdge (s : State) : Host.Outcome State Fault Refusal :=
  match s.pend with
  | none => .next s
  | some c => if s.edgesLeft ≤ 1 then runCommand c s else .next (countEdge s)

/-- An edge with `rst = 0` before the first reset edge (R81, U8): a command is refused, and otherwise every register
takes an unspecified value (log entry 3, DEDUCED, safe). -/
def beforeResetEdge (p : PinSample) (s : State) : Host.Outcome State Fault Refusal :=
  if p.reqValid = 1 then .refused .commandBeforeReset else .next (unspecifiedEdge s)

/-- One rising edge of `clk`. Reset comes before everything (R80). -/
def clockEdge (s : State) : Host.Outcome State Fault Refusal :=
  if (pinsAt s 0).rst = 1 then .next (resetEdge (clockTick s))
  else if s.resetSeen = false then beforeResetEdge (pinsAt s 0) (clockTick s)
  else if busyField s.status = 0 then idleEdge (pinsAt s 0) (clockTick s)
  else pendingEdge (clockTick s)

end Sys2Proof.Machine
end

