-- ==== Sys2Proof/Machine/Step.lean ====
section
/-! DEFINITION. The step: one rising edge of `clk`. -/

namespace Sys2Proof.Machine

/-- One step is one rising edge of `clk` (R14). -/
def step (s : State) : Host.Outcome State Fault Refusal := clockEdge s

/-- `s` with the command whose bits are `w` pending in `PEND`, from which the block executes (R22, R84), at the last
edge of its latency and with the pins idle: the very next step runs it (log entry 5, DESIGN CHOICE, safe). -/
def State.withFetchWord (s : State) (nbits w : Nat) : State := placeCommand (commandOfBits nbits w) s

end Sys2Proof.Machine
end

