-- ==== Sys2Proof/Machine/Assembler.lean ====
section
/-! DEFINITION. The spec's way of writing commands and outcomes (30_encoding.md R36 listing form, R42, R43). Text is a
list of characters. The block itself reads none of it: a host assembles a command and presents its words. What R36
and R42 leave open of the text is log entry 9 (DESIGN CHOICE, safe). -/

namespace Sys2Proof.Machine

/-- Why a line is no command of R42. -/
inductive AsmReject where
  /-- no mnemonic, or the wrong number of operands for it -/
  | malformedLine
  /-- a mnemonic that is not in R38 -/
  | unknownMnemonic
  /-- an operand that is neither a 256-bit literal nor a host variable -/
  | badOperand
  deriving DecidableEq, Repr

/-- The mnemonics of R38 with the number of operands each one takes (R42). -/
def mnemonicTable : List (List Char × Nat) :=
  [("FLOOR_INTERMEDIATE".toList, 1), ("FLOOR".toList, 1), ("HALF_SCALING".toList, 1), ("DOUBLE_SCALING".toList, 1),
   ("ADD".toList, 2), ("SUB".toList, 2), ("DIFF_AND_SIGN".toList, 2), ("MUL".toList, 2), ("DIV".toList, 2)]

/-- The row of a mnemonic: its `OPC` and operand count. Case does not matter, so the source's lower-case function
names are accepted (R42); rows stand in `OPC` order from 0x01 (R38). -/
def lookupMnemonic (m : List Char) : Option (Opcode × Nat) :=
  let upper := m.map Char.toUpper
  match mnemonicTable.findIdx? (fun row => row.1 == upper) with
  | none => none
  | some k => some (BitVec.ofNat 8 (k + 1), (mnemonicTable.getD k ([], 0)).2)

/-- The value of a digit character in base 10 or 16. -/
def digitValue (base : Nat) (ch : Char) : Option Nat :=
  let n := ch.toNat
  let v :=
    if '0'.toNat ≤ n ∧ n ≤ '9'.toNat then n - '0'.toNat
    else if 'a'.toNat ≤ n ∧ n ≤ 'f'.toNat then n - 'a'.toNat + 10
    else if 'A'.toNat ≤ n ∧ n ≤ 'F'.toNat then n - 'A'.toNat + 10
    else base
  if v < base then some v else none

/-- Digits, most significant first, after the value `acc`. -/
def digitsValue (base acc : Nat) : List Char → Option Nat
  | [] => some acc
  | ch :: rest =>
    match digitValue base ch with
    | none => none
    | some v => digitsValue base (acc * base + v) rest

/-- A literal: decimal, or hexadecimal after `0x` (R42). -/
def literalValue : List Char → Option Nat
  | [] => none
  | '0' :: 'x' :: [] => none
  | '0' :: 'x' :: digits => digitsValue 16 0 digits
  | digits => digitsValue 10 0 digits

/-- An operand (R42): a 256-bit unsigned literal, or the name of a host variable. DESIGN CHOICE (log entry 9): a text of
the form of a literal is one, never a name, so it is no operand where its value is 2^256 or more. -/
def operandValue (vars : List (List Char × Word)) (t : List Char) : Option Word :=
  match literalValue t with
  | some v => if v < 2 ^ 256 then some (BitVec.ofNat 256 v) else none
  | none => vars.lookup t

/-- The parts of a text between separators. -/
def splitAtEach (sep : Char → Bool) : List Char → List (List Char)
  | [] => [[]]
  | ch :: rest =>
    match splitAtEach sep rest with
    | [] => [[ch]]
    | part :: parts => if sep ch then [] :: part :: parts else (ch :: part) :: parts

/-- The words of a text: its parts between white space, the empty ones left out. -/
def wordsOf (t : List Char) : List (List Char) :=
  (splitAtEach Char.isWhitespace t).filter fun w => !w.isEmpty

/-- A line of R42: `MNEMONIC A` or `MNEMONIC A, B`, with a comment after `;`. The command it assembles to has B = 0
for a unary operation. -/
def assembleLine (vars : List (List Char × Word)) (line : List Char) : Except AsmReject Command :=
  let code := line.takeWhile (· != ';')
  match (splitAtEach (· == ',') code).map wordsOf with
  | [[m, a]] =>
    match lookupMnemonic m with
    | none => .error .unknownMnemonic
    | some (op, n) =>
      if n = 1 then
        match operandValue vars a with
        | none => .error .badOperand
        | some va => .ok (commandOf op va 0)
      else .error .malformedLine
  | [[m, a], [b]] =>
    match lookupMnemonic m with
    | none => .error .unknownMnemonic
    | some (op, n) =>
      if n = 2 then
        match operandValue vars a, operandValue vars b with
        | some va, some vb => .ok (commandOf op va vb)
        | _, _ => .error .badOperand
      else .error .malformedLine
  | _ => .error .malformedLine

/-- A hexadecimal digit, lower case. DESIGN CHOICE (log entry 9): R36 does not state the letter case. -/
def hexDigit (n : Nat) : Char := "0123456789abcdef".toList.getD (n % 16) '0'

/-- `count` hexadecimal digits of a number, most significant first. -/
def hexDigits : Nat → Nat → List Char
  | 0, _ => []
  | count + 1, n => hexDigits count (n / 16) ++ [hexDigit n]

/-- The listing form of a command (R36): `OPC=0xNN A=0x<64 hex digits> B=0x<64 hex digits>`, the digits of an operand
its high limb's 32 followed by its low limb's 32. DESIGN CHOICE (log entry 9): R36 does not state the letter case of the
digits; the model writes `OPC` in capitals and operands in lower case, as 95_test_vectors.md prints them (V65, V2). -/
def listingForm (c : Command) : List Char :=
  "OPC=0x".toList ++ (hexDigits 2 c.op.toNat).map Char.toUpper ++
  " A=0x".toList ++ hexDigits 32 c.aHi.toNat ++ hexDigits 32 c.aLo.toNat ++
  " B=0x".toList ++ hexDigits 32 c.bHi.toNat ++ hexDigits 32 c.bLo.toNat

/-- The name of a cause (R61). -/
def causeName : Cause → List Char
  | .overflow => "Overflow".toList
  | .underflow => "Underflow".toList
  | .divisionByZero => "DivisionByZero".toList
  | .outOfBounds => "OutOfBounds".toList
  | .illegalOpcode => "IllegalOpcode".toList

/-- The written outcome of a command (R42): `-> (r, s)` or `-> fault <Cause>`. DESIGN CHOICE (log entry 9): `r` and `s`
are written in decimal. -/
def outcomeText : CmdOutcome → List Char
  | .result r sg => "-> (".toList ++ Nat.toDigits 10 r.toNat ++ ", ".toList ++ Nat.toDigits 10 sg.toNat ++ ")".toList
  | .raised c => "-> fault ".toList ++ causeName c

end Sys2Proof.Machine
end

