-- ==== Sys2Proof/Machine/Ports.lean ====
section
/-! DEFINITION. The output pins (10_state.md R13, R14, R21) and the host's read of a result (70_reset_and_hazards.md
R82). Neither changes any state (20_memory.md R28): both are functions of the state. -/

namespace Sys2Proof.Machine

/-- The output pins while the host drives `rst` (R13, R14, R21). While `VALID = 0` the result pins drive the registers'
stale values (U7). `STATUS[7:6]` is hardwired 0 (R16). -/
def outputPins (rst : Bit) (s : State) : PinOutputs :=
  { reqReady := reqReady rst s
    rspDone := s.rspDone
    rLo := s.resLo
    rHi := s.resHi
    sign := s.sign
    status := packStatus (busyField s.status) (validField s.status) (causeField s.status) }

/-- The 256-bit result register `RES = RES_LO + RES_HI * 2^128` (R15). -/
def resWord (s : State) : Word := assemble s.resLo s.resHi

/-- The host's read of `RES` and `SIGN` as a result (R82, U7): while `VALID = 0` it has no value and is a model fault,
never the stale value (log entry 8, DEDUCED, safe). -/
def readResult (s : State) : Except Fault (Word × Bit) :=
  if validField s.status = 1 then .ok (resWord s, s.sign) else .error .resultNotValid

end Sys2Proof.Machine
end

