-- ==== Sys2Proof/Machine/Abstract.lean ====
section
/-! DEFINITION. The abstract machine of 10_state.md R23, which does not track cycles, written from R23, R10 and R38
alone; and which of its steps each rising edge of the clocked machine is. -/

namespace Sys2Proof.Machine

/-- R23's `State`. -/
structure AbsState where
  /-- `RES` -/
  res : Word
  /-- `SIGN` -/
  sign : Bit
  /-- `CAUSE` -/
  cause : BitVec 4
  /-- `VALID` -/
  valid : Bit
  /-- `BUSY` -/
  busy : Bit
  /-- `PEND` -/
  pend : Option (Opcode × Word × Word)
  deriving DecidableEq, Repr

/-- R23's steps: `Reset`, `Accept(op, A, B)`, `Complete`. -/
inductive AbsEvent where
  /-- `Reset` -/
  | reset
  /-- `Accept(op, A, B)` -/
  | accept (op : Opcode) (a b : Word)
  /-- `Complete` -/
  | complete
  deriving DecidableEq, Repr

/-- `Exec(op, A, B)` (R10), the operation selected by the opcode map (R38, R39). -/
def evalCommand (op : Opcode) (a b : Word) : CmdOutcome :=
  if op = 0x01#8 then evalFloorIntermediate a
  else if op = 0x02#8 then evalFloor a
  else if op = 0x03#8 then evalHalfScaling a
  else if op = 0x04#8 then evalDoubleScaling a
  else if op = 0x05#8 then evalAdd a b
  else if op = 0x06#8 then evalSub a b
  else if op = 0x07#8 then evalDiffAndSign a b
  else if op = 0x08#8 then evalMul a b
  else if op = 0x09#8 then evalDiv a b
  else .raised .illegalOpcode

/-- R23's `Reset` state. -/
def AbsState.initial : AbsState := { res := 0, sign := 0, cause := 0, valid := 0, busy := 0, pend := none }

/-- R23's step relation as a partial function: no state where the step's `requires` does not hold. -/
def absStep : AbsEvent → AbsState → Option AbsState
  | .reset, _ => some AbsState.initial
  | .accept op a b, s =>
    if s.busy = 0 then some { s with busy := 1, valid := 0, cause := 0, pend := some (op, a, b) } else none
  | .complete, s =>
    match s.pend with
    | none => none
    | some (op, a, b) =>
      if s.busy = 1 then
        match evalCommand op a b with
        | .result r sg => some { s with res := r, sign := sg, cause := 0, valid := 1, busy := 0, pend := none }
        | .raised c => some { s with cause := causeCode c, valid := 0, busy := 0, pend := none }
      else none

/-- The abstract state of a state of the clocked machine. -/
def abstraction (s : State) : AbsState :=
  { res := resWord s
    sign := s.sign
    cause := causeField s.status
    valid := validField s.status
    busy := busyField s.status
    pend := s.pend.map fun c => (c.op, operandA c, operandB c) }

/-- The abstract step the next rising edge is, after the first reset edge: none where the edge only passes time. -/
def edgeEvent (s : State) : Option AbsEvent :=
  let p := pinsAt s 0
  if p.rst = 1 then some .reset
  else if busyField s.status = 0 then
    if p.reqValid = 1 then some (.accept p.cmd.op (operandA p.cmd) (operandB p.cmd)) else none
  else if s.pend.isSome ∧ s.edgesLeft ≤ 1 then some .complete
  else none

end Sys2Proof.Machine
end

