-- ==== Sys2Proof/Safety.lean ====
section
/-! DEFINITION. What claims are stated in: the legal states (10_state.md R16, R22), the two ways a command completes
(R20, R62), and runs of several edges. -/

namespace Sys2Proof.Machine

/-- The combinations of `STATUS` fields the block can show (R16): idle and empty, pending, done with result, done with
fault (`CAUSE` one of 0x1, 0x2, 0x3, 0x5); the reserved bits read 0. -/
abbrev LegalStatus (st : BitVec 8) : Prop :=
  reservedField st = 0 ∧
  ((busyField st = 0 ∧ validField st = 0 ∧ causeField st = 0) ∨
   (busyField st = 1 ∧ validField st = 0 ∧ causeField st = 0) ∨
   (busyField st = 0 ∧ validField st = 1 ∧ causeField st = 0) ∨
   (busyField st = 0 ∧ validField st = 0 ∧
    (causeField st = 0x1 ∨ causeField st = 0x2 ∨ causeField st = 0x3 ∨ causeField st = 0x5)))

/-- A legal state after the first reset edge: `STATUS` shows a combination of R16; a command is pending exactly while
`BUSY = 1` (R16, R22), with an edge still to come until it completes (R20); and a cycle with `rsp_done = 1` follows a
completion, so `BUSY = 0` and `STATUS` reports an outcome (R20, R21). -/
abbrev Legal (s : State) : Prop :=
  s.resetSeen = true ∧
  LegalStatus s.status ∧
  (busyField s.status = 1 ↔ s.pend.isSome = true) ∧
  (s.pend.isSome = true → 1 ≤ s.edgesLeft) ∧
  (s.rspDone = 1 → busyField s.status = 0 ∧ (validField s.status = 1 ∨ causeField s.status ≠ 0))

/-- The value of the result registers, `RES_LO + RES_HI * 2^128` (R15). -/
def resValue (s : State) : Nat := s.resLo.toNat + s.resHi.toNat * 2 ^ 128

/-- `t` is `s` after a completion without fault, with the result value `r` and the sign bit `sg` (R20): the model's own
counter `edgesLeft` is spent, and nothing of the state besides is changed. -/
structure CompletesWith (s t : State) (r : Nat) (sg : Bit) : Prop where
  res : resValue t = r
  sign : t.sign = sg
  cause : causeField t.status = 0
  valid : validField t.status = 1
  busy : busyField t.status = 0
  reserved : reservedField t.status = 0
  pend : t.pend = none
  done : t.rspDone = 1
  edgesLeft : t.edgesLeft = 0
  inputs : t.inputs = s.inputs
  draws : t.draws = s.draws
  resetSeen : t.resetSeen = s.resetSeen

/-- `t` is `s` after a completion with the fault of this cause code (R20, R62): the result registers and `SIGN` keep
their values, the model's own counter `edgesLeft` is spent, and nothing of the state besides `STATUS`, `PEND` and the
`rsp_done` pulse is changed. -/
structure FaultsWith (s t : State) (code : BitVec 4) : Prop where
  resLo : t.resLo = s.resLo
  resHi : t.resHi = s.resHi
  sign : t.sign = s.sign
  cause : causeField t.status = code
  valid : validField t.status = 0
  busy : busyField t.status = 0
  reserved : reservedField t.status = 0
  pend : t.pend = none
  done : t.rspDone = 1
  edgesLeft : t.edgesLeft = 0
  inputs : t.inputs = s.inputs
  draws : t.draws = s.draws
  resetSeen : t.resetSeen = s.resetSeen

/-- `n` rising edges from `s` end in the state `t`. -/
def RunsTo (n : Nat) (s t : State) : Prop := Sys2Proof.core.run n s = .next t

/-- The host keeps `rst = 0` at the next `n` edges. -/
def NoResetFor (n : Nat) (s : State) : Prop := ∀ j, j < n → (pinsAt s j).rst = 0

/-- The host presents command `c` at the next edge and the block takes it there (R19): `rst = 0`, `req_valid = 1`,
`req_ready = 1`. -/
def AcceptsNext (c : Command) (s : State) : Prop :=
  s.resetSeen = true ∧ (pinsAt s 0).rst = 0 ∧ (pinsAt s 0).reqValid = 1 ∧ (pinsAt s 0).cmd = c ∧
  reqReady (pinsAt s 0).rst s = 1

/-- Command `c` is pending and completes at the next edge (R20). -/
def CompletesNext (c : Command) (s : State) : Prop :=
  s.resetSeen = true ∧ (pinsAt s 0).rst = 0 ∧ busyField s.status = 1 ∧ s.pend = some c ∧ s.edgesLeft ≤ 1

/-- `OPC` selects the operation (R38): the completion edge of every pending command with this `OPC` is that operation
with the operands on its ports, run on the state with the edge's pins past. -/
def Selects (op : Opcode) (i : Command → Instr) : Prop :=
  ∀ c s, c.op = op → CompletesNext c s → step s = exec (i c) (clockTick s)

/-- The operation completes from `s` with the fault of this cause code. -/
def Raises (i : Instr) (s : State) (code : BitVec 4) : Prop := ∃ t, exec i s = .next t ∧ FaultsWith s t code

/-- A text that can stand as an operand of a line of R42: not empty, and without white space, comma or semicolon. -/
abbrev OperandToken (t : List Char) : Prop :=
  t ≠ [] ∧ ∀ ch ∈ t, ch.isWhitespace = false ∧ ch ≠ ',' ∧ ch ≠ ';'

/-- The next `n` edges from `s` are none of the abstract machine's steps: at each of them `edgeEvent` is none, and the
abstract state is that of `s` before and after it. -/
def QuietFor (n : Nat) (s : State) : Prop :=
  ∀ k, k ≤ n → ∃ v, RunsTo k s v ∧ abstraction v = abstraction s ∧ (k < n → edgeEvent v = none)

/-- A safe run: none of its edges stops. -/
def SafeFor (n : Nat) (s : State) : Prop := ∀ k, k ≤ n → ∃ t, RunsTo k s t

end Sys2Proof.Machine
end

