-- ==== Sys2Proof/Certificates/Slice0/Obligations.lean ====
section
/-! DEFINITION. The statements for the provers, from the numbered rules of the spec. Constants are written as numerals
(10^18 for `SCALE`, 10^9 for `HALF_SCALE`, `T` in decimal), so that a statement does not lean on Config. -/

open Sys2Proof Sys2Proof.Machine

/-! Encoding -/

/-- Three command words written out from R38, one per family, decode to their operations; 0x00 and 0x0A to none (R39). -/
def Obligations.TableWordsDecodeAsListed : Prop :=
  decodeTableWord 8 0x03 = some (.halfScaling 0) ∧ decodeTableWord 8 0x07 = some (.diffAndSign 0 0) ∧
  decodeTableWord 8 0x09 = some (.div 0 0) ∧ decodeTableWord 8 0x00 = none ∧ decodeTableWord 8 0x0A = none

/-- R38: the opcode map, row by row; each `OPC` selects its operation by equality with the whole command word. -/
def Obligations.OpcodeMapSelectsOperation : Prop :=
  ∀ c : Command,
    (c.op = 0x01#8 → decode c = .ok (.floorIntermediate (operandA c))) ∧
    (c.op = 0x02#8 → decode c = .ok (.floor (operandA c))) ∧
    (c.op = 0x03#8 → decode c = .ok (.halfScaling (operandA c))) ∧
    (c.op = 0x04#8 → decode c = .ok (.doubleScaling (operandA c))) ∧
    (c.op = 0x05#8 → decode c = .ok (.add (operandA c) (operandB c))) ∧
    (c.op = 0x06#8 → decode c = .ok (.sub (operandA c) (operandB c))) ∧
    (c.op = 0x07#8 → decode c = .ok (.diffAndSign (operandA c) (operandB c))) ∧
    (c.op = 0x08#8 → decode c = .ok (.mul (operandA c) (operandB c))) ∧
    (c.op = 0x09#8 → decode c = .ok (.div (operandA c) (operandB c)))

/-- R37: operands are assembled from the limbs without extension, scaling or shifting, `A.lo` and `A.hi` are the limbs
again, and no operand value is refused at decode. -/
def Obligations.OperandsAssembleFromLimbs : Prop :=
  ∀ c : Command,
    (operandA c).toNat = c.aLo.toNat + c.aHi.toNat * 2 ^ 128 ∧
    (operandB c).toNat = c.bLo.toNat + c.bHi.toNat * 2 ^ 128 ∧
    lowLimb (operandA c) = c.aLo ∧ highLimb (operandA c) = c.aHi ∧
    lowLimb (operandB c) = c.bLo ∧ highLimb (operandB c) = c.bHi ∧
    (c.wellFormed = true → ∃ i, decode c = .ok i)

/-- Decoding the encoding of an operation gives it back, every operand at every value (R36, R37, R38). -/
def Obligations.DecodeOfEncode : Prop := ∀ i : Instr, decode (encode i) = .ok i

/-- Encoding what a command decodes to gives the command back, up to the B operand that a unary operation ignores and
an assembler writes as 0 (R38, R41, R42). -/
def Obligations.EncodeOfDecode : Prop := ∀ (c : Command) (i : Instr), decode c = .ok i → encode i = c.canonical

/-- R39: exactly `OPC` 0x00 and 0x0A to 0xFF name no operation; such a command is accepted like any other and completes
with `IllegalOpcode` (0x5), whatever its operands are. -/
def Obligations.IllegalOpcodesFault : Prop :=
  (∀ c : Command, (c.op = 0x00#8 ∨ 0x0A ≤ c.op.toNat) ↔ ∃ e, decode c = .error e) ∧
  ∀ (c : Command) (s : State), (c.op = 0x00#8 ∨ 0x0A ≤ c.op.toNat) →
    (AcceptsNext c s → ∃ t, step s = .next t ∧ t.pend = some c ∧ busyField t.status = 1) ∧
    (CompletesNext c s → ∃ t, step s = .next t ∧ FaultsWith (clockTick s) t 0x5)

/-- R41: a unary command's B limbs are sampled with it, and the edge it completes at does the same for every B. -/
def Obligations.UnaryOperationsIgnoreB : Prop :=
  ∀ (c : Command) (bLo bHi : Limb) (s : State), 0x01 ≤ c.op.toNat → c.op.toNat ≤ 0x04 →
    (AcceptsNext c s → ∃ t, step s = .next t ∧ t.pend = some c) ∧
    (CompletesNext c s → step { s with pend := some { c with bLo := bLo, bHi := bHi } } = step s)

/-- Every line that assembles gives one well-formed command, with B = 0 for a unary operation; and each of the nine
mnemonics, in any case of its letters, with its number of operands, assembles to its own `OPC` and those operand
values, a comment after `;` left out (R42, R43). -/
def Obligations.AssembledLinesAreCanonicalCommands : Prop :=
  (∀ (vars : List (List Char × Word)) (line : List Char) (c : Command),
    assembleLine vars line = .ok c → c.wellFormed = true ∧ c.canonical = c) ∧
  ∀ (vars : List (List Char × Word)) (m ta tb tail : List Char) (va vb : Word),
    OperandToken ta → OperandToken tb → operandValue vars ta = some va → operandValue vars tb = some vb →
    (tail = [] ∨ ∃ comment, tail = ';' :: comment) →
    (∀ row ∈ [("FLOOR_INTERMEDIATE".toList, 0x01#8), ("FLOOR".toList, 0x02#8), ("HALF_SCALING".toList, 0x03#8),
        ("DOUBLE_SCALING".toList, 0x04#8)],
      m.map Char.toUpper = row.1 → assembleLine vars (m ++ ' ' :: ta ++ tail) = .ok (commandOf row.2 va 0)) ∧
    (∀ row ∈ [("ADD".toList, 0x05#8), ("SUB".toList, 0x06#8), ("DIFF_AND_SIGN".toList, 0x07#8), ("MUL".toList, 0x08#8),
        ("DIV".toList, 0x09#8)],
      m.map Char.toUpper = row.1 →
        assembleLine vars (m ++ ' ' :: ta ++ ',' :: ' ' :: tb ++ tail) = .ok (commandOf row.2 va vb))

/-- A decimal or `0x` hexadecimal text of a value below 2^256 is the operand of that value (R42). The model's choice (log
entry 9, DESIGN CHOICE): such a text is a literal before it is a name, whatever the host variables are, so a decimal text
of a value at or above 2^256 is no operand; and a text that is no literal is the host variable of that name, looked up
letter for letter. -/
def Obligations.OperandTextsDenoteTheirValues : Prop :=
  ∀ (vars : List (List Char × Word)) (n : Nat),
    (n < 2 ^ 256 →
      operandValue vars (Nat.toDigits 10 n) = some (BitVec.ofNat 256 n) ∧
      ∀ k, 0 < k → n < 16 ^ k → operandValue vars ('0' :: 'x' :: hexDigits k n) = some (BitVec.ofNat 256 n)) ∧
    (2 ^ 256 ≤ n → operandValue vars (Nat.toDigits 10 n) = none) ∧
    ∀ t : List Char, literalValue t = none → operandValue vars t = vars.lookup t

/-- At the completion edge of a pending command that decodes to `i`, the step is `exec` of `i`, on the state with the
edge's pins past and the `rsp_done` pulse over (R20, R21, R22). -/
def Obligations.StepRunsDecodedInstruction : Prop :=
  ∀ (s : State) (c : Command) (i : Instr), CompletesNext c s → decode c = .ok i →
    step s = exec i { s with inputs := s.inputs.tail, rspDone := 0 }

/-- The model's choice (log entry 5): from `withFetchWord`, the very next step runs the table word's operation. -/
def Obligations.FetchWordRunsItsInstruction : Prop :=
  ∀ (s : State) (w : Nat) (i : Instr), decodeTableWord 8 w = some i →
    step (s.withFetchWord 8 w) =
      exec i { s with
        status := 0x20#8, pend := some (commandOfBits 8 w), edgesLeft := 1, resetSeen := true, rspDone := 0 }

/-! Results: each operation from every state -/

/-- R46: FLOOR_INTERMEDIATE. -/
def Obligations.FloorIntermediateResult : Prop :=
  Selects 0x01#8 (fun c => .floorIntermediate (operandA c)) ∧
  ∀ (a : Word) (s : State), ∃ t, exec (.floorIntermediate a) s = .next t ∧ CompletesWith s t (a.toNat / 10 ^ 18) 0

/-- R47: FLOOR, with its laws `r <= A < r + SCALE` and `r % SCALE = 0`, and its idempotence. -/
def Obligations.FloorResult : Prop :=
  Selects 0x02#8 (fun c => .floor (operandA c)) ∧
  ∀ (a : Word) (s : State), ∃ t, exec (.floor a) s = .next t ∧ CompletesWith s t (a.toNat / 10 ^ 18 * 10 ^ 18) 0 ∧
    resValue t = a.toNat - a.toNat % 10 ^ 18 ∧
    resValue t ≤ a.toNat ∧ a.toNat < resValue t + 10 ^ 18 ∧ resValue t % 10 ^ 18 = 0 ∧
    (a.toNat % 10 ^ 18 = 0 → resValue t = a.toNat)

/-- R48: HALF_SCALING. -/
def Obligations.HalfScalingResult : Prop :=
  Selects 0x03#8 (fun c => .halfScaling (operandA c)) ∧
  ∀ (a : Word) (s : State), ∃ t, exec (.halfScaling a) s = .next t ∧ CompletesWith s t (a.toNat / 10 ^ 9) 0

/-- R49: DOUBLE_SCALING, and its Overflow exactly when `A * SCALE >= 2^256`, which is exactly when `A > T`. -/
def Obligations.DoubleScalingResultOrOverflow : Prop :=
  Selects 0x04#8 (fun c => .doubleScaling (operandA c)) ∧
  ∀ (a : Word) (s : State),
    (a.toNat * 10 ^ 18 < 2 ^ 256 →
      ∃ t, exec (.doubleScaling a) s = .next t ∧ CompletesWith s t (a.toNat * 10 ^ 18) 0) ∧
    (2 ^ 256 ≤ a.toNat * 10 ^ 18 → Raises (.doubleScaling a) s 0x1) ∧
    (2 ^ 256 ≤ a.toNat * 10 ^ 18 ↔ 115792089237316195423570985008687907853269984665640564039457 < a.toNat)

/-- R53: ADD, its Overflow exactly when `A + B >= 2^256`, and its commutativity, including the fault. -/
def Obligations.AddResultOrOverflow : Prop :=
  Selects 0x05#8 (fun c => .add (operandA c) (operandB c)) ∧
  ∀ (a b : Word) (s : State),
    (a.toNat + b.toNat < 2 ^ 256 → ∃ t, exec (.add a b) s = .next t ∧ CompletesWith s t (a.toNat + b.toNat) 0) ∧
    (2 ^ 256 ≤ a.toNat + b.toNat → Raises (.add a b) s 0x1) ∧
    exec (.add a b) s = exec (.add b a) s

/-- R54: SUB, and its Underflow exactly when `A < B`. -/
def Obligations.SubResultOrUnderflow : Prop :=
  Selects 0x06#8 (fun c => .sub (operandA c) (operandB c)) ∧
  ∀ (a b : Word) (s : State),
    (b.toNat ≤ a.toNat → ∃ t, exec (.sub a b) s = .next t ∧ CompletesWith s t (a.toNat - b.toNat) 0) ∧
    (a.toNat < b.toNat → Raises (.sub a b) s 0x2)

/-- R55: DIFF_AND_SIGN never faults; swapping the operands keeps the magnitude and flips the sign when `A != B`. -/
def Obligations.DiffAndSignResult : Prop :=
  Selects 0x07#8 (fun c => .diffAndSign (operandA c) (operandB c)) ∧
  ∀ (a b : Word) (s : State),
    (b.toNat ≤ a.toNat → ∃ t, exec (.diffAndSign a b) s = .next t ∧ CompletesWith s t (a.toNat - b.toNat) 0) ∧
    (a.toNat < b.toNat → ∃ t, exec (.diffAndSign a b) s = .next t ∧ CompletesWith s t (b.toNat - a.toNat) 1) ∧
    (a ≠ b → ∃ t u, exec (.diffAndSign a b) s = .next t ∧ exec (.diffAndSign b a) s = .next u ∧
      resValue u = resValue t ∧ u.sign = ~~~t.sign)

/-- R56: MUL, its Overflow, its commutativity, and `MUL A, SCALE = A - (A % 10^9)`. -/
def Obligations.MulResultOrOverflow : Prop :=
  Selects 0x08#8 (fun c => .mul (operandA c) (operandB c)) ∧
  ∀ (a b : Word) (s : State),
    (a.toNat / 10 ^ 9 * (b.toNat / 10 ^ 9) < 2 ^ 256 →
      ∃ t, exec (.mul a b) s = .next t ∧ CompletesWith s t (a.toNat / 10 ^ 9 * (b.toNat / 10 ^ 9)) 0) ∧
    (2 ^ 256 ≤ a.toNat / 10 ^ 9 * (b.toNat / 10 ^ 9) → Raises (.mul a b) s 0x1) ∧
    exec (.mul a b) s = exec (.mul b a) s ∧
    ∃ t, exec (.mul a 1000000000000000000#256) s = .next t ∧ CompletesWith s t (a.toNat - a.toNat % 10 ^ 9) 0

/-- R57: DIV; DivisionByZero exactly when `B = 0`, whatever A is, and otherwise Overflow exactly when
`A * SCALE >= 2^256`, that is `A > T`. -/
def Obligations.DivResultOrFault : Prop :=
  Selects 0x09#8 (fun c => .div (operandA c) (operandB c)) ∧
  ∀ (a b : Word) (s : State),
    (b.toNat = 0 → Raises (.div a b) s 0x3) ∧
    (b.toNat ≠ 0 → 2 ^ 256 ≤ a.toNat * 10 ^ 18 → Raises (.div a b) s 0x1) ∧
    (b.toNat ≠ 0 → a.toNat * 10 ^ 18 < 2 ^ 256 →
      ∃ t, exec (.div a b) s = .next t ∧ CompletesWith s t (a.toNat * 10 ^ 18 / b.toNat) 0) ∧
    (2 ^ 256 ≤ a.toNat * 10 ^ 18 ↔ 115792089237316195423570985008687907853269984665640564039457 < a.toNat)

/-- R58: MUL's result is below the exact product by less than `A // HALF_SCALE + B // HALF_SCALE + 1`. -/
def Obligations.MulRoundingBound : Prop :=
  ∀ (a b : Word) (s t : State), exec (.mul a b) s = .next t → validField t.status = 1 →
    (0 : ℚ) ≤ (a.toNat : ℚ) * (b.toNat : ℚ) / 10 ^ 18 - (resValue t : ℚ) ∧
    (a.toNat : ℚ) * (b.toNat : ℚ) / 10 ^ 18 - (resValue t : ℚ) <
      ((a.toNat / 10 ^ 9 : ℕ) : ℚ) + ((b.toNat / 10 ^ 9 : ℕ) : ℚ) + 1 ∧
    resValue t ≤ a.toNat * b.toNat / 10 ^ 18

/-- R45: every division truncates, which is the floor; the four operations that do not round are exact or fault. -/
def Obligations.RoundingIsFloor : Prop :=
  ∀ (a b : Word) (s t : State), validField t.status = 1 →
    (exec (.floorIntermediate a) s = .next t →
      resValue t * 10 ^ 18 ≤ a.toNat ∧ a.toNat < (resValue t + 1) * 10 ^ 18) ∧
    (exec (.floor a) s = .next t →
      ∃ q, resValue t = q * 10 ^ 18 ∧ q * 10 ^ 18 ≤ a.toNat ∧ a.toNat < (q + 1) * 10 ^ 18) ∧
    (exec (.halfScaling a) s = .next t →
      resValue t * 10 ^ 9 ≤ a.toNat ∧ a.toNat < (resValue t + 1) * 10 ^ 9) ∧
    (exec (.mul a b) s = .next t →
      ∃ ha hb, resValue t = ha * hb ∧ ha * 10 ^ 9 ≤ a.toNat ∧ a.toNat < (ha + 1) * 10 ^ 9 ∧
        hb * 10 ^ 9 ≤ b.toNat ∧ b.toNat < (hb + 1) * 10 ^ 9) ∧
    (exec (.div a b) s = .next t →
      resValue t * b.toNat ≤ a.toNat * 10 ^ 18 ∧ a.toNat * 10 ^ 18 < (resValue t + 1) * b.toNat) ∧
    (exec (.doubleScaling a) s = .next t → resValue t = a.toNat * 10 ^ 18) ∧
    (exec (.add a b) s = .next t → resValue t = a.toNat + b.toNat) ∧
    (exec (.sub a b) s = .next t → resValue t + b.toNat = a.toNat) ∧
    (exec (.diffAndSign a b) s = .next t →
      resValue t + min a.toNat b.toNat = max a.toNat b.toNat)

/-- R60, "At zero": every operation on zero operands gives 0 with `SIGN = 0`, except DIV, which faults; MUL by 0 and
DIV of 0 give 0. -/
def Obligations.ZeroOperands : Prop :=
  ∀ s : State,
    (∀ i ∈ [Instr.floorIntermediate 0, .floor 0, .halfScaling 0, .doubleScaling 0, .add 0 0, .sub 0 0,
        .diffAndSign 0 0, .mul 0 0],
      ∃ t, exec i s = .next t ∧ CompletesWith s t 0 0) ∧
    Raises (.div 0 0) s 0x3 ∧
    (∀ a : Word, ∃ t, exec (.mul a 0) s = .next t ∧ CompletesWith s t 0 0) ∧
    (∀ b : Word, b ≠ 0 → ∃ t, exec (.div 0 b) s = .next t ∧ CompletesWith s t 0 0)

/-! The limb datapath -/

/-- R50: `carry_out = 1` exactly when `A + B >= 2^256`, and the sum is exact when it is 0. -/
def Obligations.LimbAdderCarry : Prop :=
  ∀ a b : Word,
    ((limbAdd a b).2 = 1 ↔ 2 ^ 256 ≤ a.toNat + b.toNat) ∧
    ((limbAdd a b).2 = 0 → (limbAdd a b).1.toNat = a.toNat + b.toNat) ∧
    (limbAdd a b).1.toNat + (limbAdd a b).2.toNat * 2 ^ 256 = a.toNat + b.toNat

/-- R51: `borrow_out = 1` exactly when `A < B`, and the difference is exact when it is 0. -/
def Obligations.LimbSubtractorBorrow : Prop :=
  ∀ a b : Word,
    ((limbSub a b).2 = 1 ↔ a.toNat < b.toNat) ∧
    ((limbSub a b).2 = 0 → (limbSub a b).1.toNat = a.toNat - b.toNat) ∧
    (limbSub a b).1.toNat + b.toNat = a.toNat + (limbSub a b).2.toNat * 2 ^ 256

/-- R52: the comparator decides `A < B`, and agrees with the subtractor's borrow. -/
def Obligations.LimbComparatorOrder : Prop :=
  ∀ a b : Word, (limbLess a b = true ↔ a.toNat < b.toNat) ∧ (limbLess a b = true ↔ (limbSub a b).2 = 1)

/-! Faults -/

/-- R63: the overflow-trap comparator's input per operation, with the equivalent condition of the table; the other five
operations never overflow. -/
def Obligations.OverflowComparatorInputs : Prop :=
  ∀ (a b : Word) (s : State),
    (Raises (.add a b) s 0x1 ↔ 2 ^ 256 ≤ a.toNat + b.toNat) ∧
    (Raises (.add a b) s 0x1 ↔ (limbAdd a b).2 = 1) ∧
    (Raises (.doubleScaling a) s 0x1 ↔ 2 ^ 256 ≤ a.toNat * 10 ^ 18) ∧
    (Raises (.doubleScaling a) s 0x1 ↔
      115792089237316195423570985008687907853269984665640564039457 < a.toNat) ∧
    (Raises (.mul a b) s 0x1 ↔ 2 ^ 256 ≤ a.toNat / 10 ^ 9 * (b.toNat / 10 ^ 9)) ∧
    (b ≠ 0 → (Raises (.div a b) s 0x1 ↔ 2 ^ 256 ≤ a.toNat * 10 ^ 18)) ∧
    (b ≠ 0 → (Raises (.div a b) s 0x1 ↔
      115792089237316195423570985008687907853269984665640564039457 < a.toNat)) ∧
    ∀ i ∈ [Instr.floorIntermediate a, .floor a, .halfScaling a, .sub a b, .diffAndSign a b],
      ¬ Raises i s 0x1 ∧ ∀ t, exec i s = .next t → validField t.status = 1 → resValue t ≤ max a.toNat b.toNat

/-- R64: the complete list of causes each `OPC` can raise, and that it can raise each of them. -/
def Obligations.CausesPerOpcode : Prop :=
  (∀ (c : Command) (s t : State), CompletesNext c s → step s = .next t →
    (c.op ∈ [0x01#8, 0x02#8, 0x03#8, 0x07#8] → causeField t.status = 0x0) ∧
    (c.op ∈ [0x04#8, 0x05#8, 0x08#8] → causeField t.status = 0x0 ∨ causeField t.status = 0x1) ∧
    (c.op = 0x06#8 → causeField t.status = 0x0 ∨ causeField t.status = 0x2) ∧
    (c.op = 0x09#8 → causeField t.status = 0x0 ∨ causeField t.status = 0x3 ∨ causeField t.status = 0x1) ∧
    (c.op = 0x00#8 ∨ 0x0A ≤ c.op.toNat → causeField t.status = 0x5)) ∧
  ∀ row ∈ [(0x04#8, 0x1#4), (0x05#8, 0x1#4), (0x06#8, 0x2#4), (0x08#8, 0x1#4), (0x09#8, 0x3#4), (0x09#8, 0x1#4)],
    ∃ (c : Command) (s t : State), c.op = row.1 ∧ CompletesNext c s ∧ step s = .next t ∧ causeField t.status = row.2

/-- R62: what a fault does and does not do: only `STATUS`, `PEND`, `rsp_done` and the model's own counter
`edgesLeft` change, the block is ready for the next command, and `rsp_done` is 0 again after the following edge. -/
def Obligations.FaultMechanism : Prop :=
  ∀ (c : Command) (s : State) (k : Cause), CompletesNext c s →
    evalCommand c.op (operandA c) (operandB c) = .raised k →
    ∃ t, step s = .next t ∧ FaultsWith (clockTick s) t (causeCode k) ∧ reqReady 0 t = 1 ∧
      ∀ u, step t = .next u → u.rspDone = 0

/-! Registers and the status register -/

/-- R18: DIFF_AND_SIGN writes `SIGN` with the sign of `A - B`; every other command that completes without fault writes
0; a fault leaves it; nothing inside the block reads it; its reset value is 0. -/
def Obligations.SignFlagRule : Prop :=
  (∀ (a b : Word) (s t : State), exec (.diffAndSign a b) s = .next t →
    t.sign = if b.toNat ≤ a.toNat then 0 else 1) ∧
  (∀ (i : Instr) (s t : State), exec i s = .next t → (∀ a b, i ≠ .diffAndSign a b) →
    (validField t.status = 1 → t.sign = 0) ∧ (validField t.status = 0 → t.sign = s.sign)) ∧
  (∀ (s t : State) (x : Bit), step s = .next t →
    ∃ u, step { s with sign := x } = .next u ∧ { u with sign := t.sign } = t) ∧
  State.reset.sign = 0

/-- R15: after the first reset edge, the result registers and `SIGN` change only at a completion without fault or a
reset, `STATUS` and `PEND` only at an acceptance, a completion or a reset; and the reset values of the table. -/
def Obligations.RegistersChangeOnlyByTransitions : Prop :=
  (∀ s t : State, s.resetSeen = true → step s = .next t → edgeEvent s ≠ some .reset →
    (t.resLo ≠ s.resLo ∨ t.resHi ≠ s.resHi ∨ t.sign ≠ s.sign →
      edgeEvent s = some .complete ∧ validField t.status = 1) ∧
    (t.status ≠ s.status ∨ t.pend ≠ s.pend →
      edgeEvent s = some .complete ∨ ∃ op a b, edgeEvent s = some (.accept op a b))) ∧
  State.reset.resLo = 0 ∧ State.reset.resHi = 0 ∧ State.reset.sign = 0 ∧ State.reset.status = 0x00 ∧
  State.reset.pend = none

/-- The invariant of R16, R20, R21, R22: every step from a legal state, whatever the pins show, ends in a legal state. -/
def Obligations.LegalStateKept : Prop := ∀ s t : State, Legal s → step s = .next t → Legal t

/-- The state after reset is legal, and so is every state after a reset edge, from any state whatever (R16, R78). -/
def Obligations.LegalStateAfterReset : Prop :=
  Legal State.reset ∧ ∀ s : State, (pinsAt s 0).rst = 1 → ∃ t, step s = .next t ∧ Legal t

/-- From a legal state no run stops, whatever the host presents: no fault and no refusal (R62, R66). -/
def Obligations.LegalRunsNeverStop : Prop := ∀ (s : State) (n : Nat), Legal s → SafeFor n s

/-- R14, R16: the pin `rsp_status` shows the fields of `STATUS`, its bits 7:6 read 0 in every state, and in a legal
state it is the register. -/
def Obligations.StatusPinShowsStatus : Prop :=
  ∀ (rst : Bit) (s : State),
    causeField (outputPins rst s).status = causeField s.status ∧
    validField (outputPins rst s).status = validField s.status ∧
    busyField (outputPins rst s).status = busyField s.status ∧
    reservedField (outputPins rst s).status = 0 ∧
    (Legal s → (outputPins rst s).status = s.status)

/-! Acceptance, completion, reset -/

/-- R19: acceptance; a request while `req_ready = 0` has no effect; without `req_valid` no command is accepted. -/
def Obligations.AcceptanceRule : Prop :=
  (∀ (c : Command) (s : State), AcceptsNext c s →
    ∃ t, step s = .next t ∧ t.pend = some c ∧ busyField t.status = 1 ∧ validField t.status = 0 ∧
      causeField t.status = 0 ∧ reservedField t.status = 0 ∧
      t.resLo = s.resLo ∧ t.resHi = s.resHi ∧ t.sign = s.sign ∧ t.rspDone = 0 ∧
      t.resetSeen = s.resetSeen ∧ t.inputs = s.inputs.tail) ∧
  (∀ (s : State) (p q : PinSample) (rest : List PinSample), s.resetSeen = true → s.inputs = p :: rest →
    p.rst = q.rst → reqReady p.rst s = 0 → step { s with inputs := q :: rest } = step s) ∧
  (∀ s : State, s.resetSeen = true → (pinsAt s 0).rst = 0 → (pinsAt s 0).reqValid = 0 →
    ∃ t, step s = .next t ∧ (∀ op a b, edgeEvent s ≠ some (.accept op a b)) ∧ (t.pend = s.pend ∨ t.pend = none))

/-- R20: exactly `LATENCY` edges after the acceptance edge the command in `PEND` completes with the outcome of
`Exec`, as long as `rst` stays 0, whatever the request pins show meanwhile; until then it is pending. -/
def Obligations.CompletionAfterExactLatency : Prop :=
  ∀ (c : Command) (s : State), AcceptsNext c s → NoResetFor (drawnLatency s c + 1) s →
    1 ≤ drawnLatency s c ∧
    (∀ j, j < drawnLatency s c → ∃ t, RunsTo (j + 1) s t ∧ t.pend = some c ∧ busyField t.status = 1 ∧
      validField t.status = 0 ∧ causeField t.status = 0 ∧ t.rspDone = 0 ∧ reqReady 0 t = 0 ∧
      t.resLo = s.resLo ∧ t.resHi = s.resHi ∧ t.sign = s.sign) ∧
    ∃ t, RunsTo (drawnLatency s c + 1) s t ∧ t.pend = none ∧ busyField t.status = 0 ∧ reservedField t.status = 0 ∧
      t.rspDone = 1 ∧ reqReady 0 t = 1 ∧
      match evalCommand c.op (operandA c) (operandB c) with
      | .result r sg => t.resLo = lowLimb r ∧ t.resHi = highLimb r ∧ t.sign = sg ∧ causeField t.status = 0 ∧
          validField t.status = 1
      | .raised k => t.resLo = s.resLo ∧ t.resHi = s.resHi ∧ t.sign = s.sign ∧ causeField t.status = causeCode k ∧
          validField t.status = 0

/-- R21: the pins `req_ready` and `rsp_done`, one command outstanding, and the earliest next acceptance. -/
def Obligations.HandshakeOutputs : Prop :=
  (∀ (rst : Bit) (s : State), (outputPins rst s).reqReady = 1 ↔ rst = 0 ∧ busyField s.status = 0) ∧
  (∀ (rst : Bit) (s : State), (outputPins rst s).rspDone = s.rspDone) ∧
  (∀ s t : State, s.resetSeen = true → step s = .next t →
    ∀ rst, (outputPins rst t).rspDone = 1 ↔ edgeEvent s = some .complete) ∧
  (∀ (c : Command) (s : State), Legal s → AcceptsNext c s → s.pend = none) ∧
  (∀ (c : Command) (s t : State), CompletesNext c s → step s = .next t →
    (∀ rst, (outputPins rst s).reqReady = 0) ∧ (outputPins 0 t).reqReady = 1) ∧
  ∀ rst, (outputPins rst State.reset).rspDone = 0

/-- R77, R78, R80: one edge with `rst = 1` puts every register at its reset value in whatever state it finds the block,
and takes precedence over a completion and over a request. -/
def Obligations.ResetEdgeRestoresResetState : Prop :=
  ∀ s : State, (pinsAt s 0).rst = 1 →
    reqReady (pinsAt s 0).rst s = 0 ∧
    ∃ t, step s = .next t ∧ t.resLo = 0 ∧ t.resHi = 0 ∧ t.sign = 0 ∧ t.status = 0x00 ∧ t.pend = none ∧
      t.rspDone = 0 ∧ reqReady 0 t = 1 ∧ t.inputs = s.inputs.tail

/-- R79: a command pending at a reset edge never completes: in the edges after it, as long as no new request comes,
`rsp_done` does not pulse and nothing reaches the registers. -/
def Obligations.ResetDiscardsPendingCommand : Prop :=
  ∀ (s : State) (n : Nat), (pinsAt s 0).rst = 1 →
    (∀ j, j < n → (pinsAt s (j + 1)).rst = 0 ∧ (pinsAt s (j + 1)).reqValid = 0) →
    ∃ t, RunsTo (n + 1) s t ∧ t.resLo = 0 ∧ t.resHi = 0 ∧ t.sign = 0 ∧ t.status = 0x00 ∧ t.pend = none ∧ t.rspDone = 0

/-- R76: an idle block holds its registers for as long as no request comes, and a request is all it takes to wake it. -/
def Obligations.IdleBlockHoldsRegisters : Prop :=
  ∀ (s : State) (n : Nat), s.resetSeen = true → busyField s.status = 0 →
    (∀ j, j < n → (pinsAt s j).rst = 0 ∧ (pinsAt s j).reqValid = 0) →
    ∃ t, RunsTo n s t ∧ t.resLo = s.resLo ∧ t.resHi = s.resHi ∧ t.sign = s.sign ∧ t.status = s.status ∧
      t.pend = s.pend ∧
      ((pinsAt s n).rst = 0 → (pinsAt s n).reqValid = 1 →
        ∃ u, RunsTo (n + 1) s u ∧ u.pend = some (pinsAt s n).cmd ∧ busyField u.status = 1)

/-- The model's choice (log entry 3, DEDUCED from R81 and U8): before the first reset edge a command is refused whatever
`req_ready` shows, and an edge without one goes on, the registers without a specified value; one reset edge makes the
block ready, from whatever the registers held. -/
def Obligations.BootFromPowerOn : Prop :=
  (∀ s : State, s.resetSeen = false → (pinsAt s 0).rst = 0 →
    ((pinsAt s 0).reqValid = 1 → step s = .refused .commandBeforeReset) ∧
    ((pinsAt s 0).reqValid = 0 → ∃ t, step s = .next t ∧ t.resetSeen = false)) ∧
  ∀ (p : PinSample) (pins : List PinSample), p.rst = 1 →
    ∃ t, step (powerOn (p :: pins)) = .next t ∧ Legal t ∧ abstraction t = AbsState.initial ∧ t.inputs = pins

/-- R82: `RES` and `SIGN` are a result only while `VALID = 1`; after an acceptance, a fault or a reset a read of them
has no value, although the pins still drive the registers. -/
def Obligations.ResultReadOnlyWhileValid : Prop :=
  (∀ s : State,
    (validField s.status = 1 → readResult s = .ok (resWord s, s.sign)) ∧
    (validField s.status = 0 → readResult s = .error .resultNotValid) ∧
    ∀ rst, (outputPins rst s).rLo = s.resLo ∧ (outputPins rst s).rHi = s.resHi ∧ (outputPins rst s).sign = s.sign) ∧
  readResult State.reset = .error .resultNotValid ∧
  (∀ (c : Command) (s t : State), AcceptsNext c s → step s = .next t → readResult t = .error .resultNotValid) ∧
  (∀ (s t : State), (pinsAt s 0).rst = 1 → step s = .next t → readResult t = .error .resultNotValid) ∧
  (∀ (c : Command) (s t : State), CompletesNext c s → step s = .next t →
    readResult t = match evalCommand c.op (operandA c) (operandB c) with
      | .result r sg => .ok (r, sg)
      | .raised _ => .error .resultNotValid)

/-! The abstract machine -/

/-- R10: the outcome of a command is a function of its own opcode and operands: two machines in any two states that
complete the same command report the same `STATUS`, and the same result and sign where there is one. -/
def Obligations.OutcomeDependsOnCommandAlone : Prop :=
  ∀ (c d : Command) (s u : State), CompletesNext c s → CompletesNext d u →
    c.op = d.op → operandA c = operandA d → operandB c = operandB d →
    ∃ t v, step s = .next t ∧ step u = .next v ∧ t.status = v.status ∧
      (validField t.status = 1 → t.resLo = v.resLo ∧ t.resHi = v.resHi ∧ t.sign = v.sign) ∧
      (validField t.status = 0 → t.resLo = s.resLo ∧ t.resHi = s.resHi ∧ t.sign = s.sign ∧
        v.resLo = u.resLo ∧ v.resHi = u.resHi ∧ v.sign = u.sign)

/-- R23: every edge of the clocked machine after the first reset edge is a step of the abstract machine, or none; and
the block stays past its first reset edge, so the steps chain over a run. -/
def Obligations.ClockedMachineRefinesAbstract : Prop :=
  abstraction State.reset = AbsState.initial ∧
  ∀ s : State, s.resetSeen = true →
    ∃ t, step s = .next t ∧ t.resetSeen = true ∧
      match edgeEvent s with
      | none => abstraction t = abstraction s
      | some e => absStep e (abstraction s) = some (abstraction t)

/-- R23: every step the abstract machine can take from a legal state, the clocked machine takes: after some number of
edges that are no step of the abstract machine and leave the abstract state as it is, the next edge is that very step
and ends in its result, whatever `LATENCY` is. -/
def Obligations.AbstractStepsAreRealised : Prop :=
  ∀ (s : State) (e : AbsEvent) (a : AbsState), Legal s → absStep e (abstraction s) = some a →
    ∃ (pins : List PinSample) (n : Nat) (t u : State), QuietFor n { s with inputs := pins } ∧
      RunsTo n { s with inputs := pins } t ∧ edgeEvent t = some e ∧ step t = .next u ∧ abstraction u = a
end

