-- ==== Sys2Proof/Laws/Assembler.lean ====
section
/-! SUPPORT. What the assembler's helpers give: the parts of a text around a separator, the row of a mnemonic, and the
value of a text of digits (R42). -/

namespace Sys2Proof.Machine

/-- A text without a separator is one part. -/
theorem splitAtEach_clean (sep : Char → Bool) (t : List Char) (h : ∀ ch ∈ t, sep ch = false) :
    splitAtEach sep t = [t] := by
  induction t with
  | nil => rfl
  | cons ch rest ih =>
    rw [splitAtEach, ih fun x hx => h x (List.mem_cons_of_mem _ hx)]
    simp [h ch List.mem_cons_self]

/-- There is always a first part. -/
theorem splitAtEach_ne_nil (sep : Char → Bool) (t : List Char) : splitAtEach sep t ≠ [] := by
  induction t with
  | nil => simp [splitAtEach]
  | cons ch rest _ =>
    rw [splitAtEach]
    split
    · simp
    · split <;> simp

/-- A part without a separator, then a separator: the rest is split on its own. -/
theorem splitAtEach_append (sep : Char → Bool) (t : List Char) (ch : Char) (rest : List Char)
    (h : ∀ x ∈ t, sep x = false) (hs : sep ch = true) :
    splitAtEach sep (t ++ ch :: rest) = t :: splitAtEach sep rest := by
  induction t with
  | nil =>
    rw [List.nil_append, splitAtEach]
    split
    · next hn => exact absurd hn (splitAtEach_ne_nil sep rest)
    · next hp => rw [if_pos hs, hp]
  | cons x t ih =>
    rw [List.cons_append, splitAtEach, ih fun y hy => h y (List.mem_cons_of_mem _ hy)]
    simp [h x List.mem_cons_self]

/-- Digits one after the other: the value of the first part is where the second goes on. -/
theorem digitsValue_append (base acc : Nat) (t u : List Char) :
    digitsValue base acc (t ++ u) = (digitsValue base acc t).bind fun v => digitsValue base v u := by
  induction t generalizing acc with
  | nil => rfl
  | cons ch rest ih =>
    rw [List.cons_append, digitsValue, digitsValue]
    split
    · rfl
    · exact ih _

/-- A mnemonic of the table in capitals is the only one its letters can spell: the row it gives, with an `OPC` from 0x01
to 0x09, and one operand exactly for the first four. -/
theorem lookupMnemonic_row (m : List Char) (op : Opcode) (n : Nat) (h : lookupMnemonic m = some (op, n)) :
    1 ≤ op.toNat ∧ op.toNat ≤ 9 ∧ (n = 1 ↔ op.toNat ≤ 4) := by
  unfold lookupMnemonic at h
  simp only at h
  split at h
  · cases h
  · next k hk =>
    obtain ⟨hlt, -⟩ := List.findIdx?_eq_some_iff_getElem.1 hk
    simp only [mnemonicTable, List.length_cons, List.length_nil] at hlt
    interval_cases k <;> simp [mnemonicTable] at h <;> obtain ⟨rfl, rfl⟩ := h <;> decide

/-- The mnemonic decides the row by its capitals alone. -/
theorem lookupMnemonic_upper (m w : List Char) (h : m.map Char.toUpper = w) (hw : w.map Char.toUpper = w) :
    lookupMnemonic m = lookupMnemonic w := by
  simp only [lookupMnemonic, h, hw]

end Sys2Proof.Machine
end

