-- ==== Sys2Proof/Laws/Operands.lean ====
section
/-! SUPPORT. Values and their limbs (R7, R37): what `assemble`, `lowLimb` and `highLimb` are as numbers, and that they
undo each other. -/

namespace Sys2Proof.Machine

theorem assemble_toNat (lo hi : Limb) : (assemble lo hi).toNat = lo.toNat + hi.toNat * 2 ^ 128 := by
  have h1 := lo.isLt
  have h2 := hi.isLt
  simp only [assemble, BitVec.toNat_ofNat]
  omega

theorem lowLimb_toNat (v : Word) : (lowLimb v).toNat = v.toNat % 2 ^ 128 := by
  simp [lowLimb]

theorem highLimb_toNat (v : Word) : (highLimb v).toNat = v.toNat / 2 ^ 128 := by
  have h := v.isLt
  simp only [highLimb, BitVec.extractLsb'_toNat, Nat.shiftRight_eq_div_pow]
  omega

theorem lowLimb_assemble (lo hi : Limb) : lowLimb (assemble lo hi) = lo := by
  apply BitVec.eq_of_toNat_eq
  have h1 := lo.isLt
  rw [lowLimb_toNat, assemble_toNat]
  omega

theorem highLimb_assemble (lo hi : Limb) : highLimb (assemble lo hi) = hi := by
  apply BitVec.eq_of_toNat_eq
  have h1 := lo.isLt
  rw [highLimb_toNat, assemble_toNat]
  omega

theorem assemble_limbs (v : Word) : assemble (lowLimb v) (highLimb v) = v := by
  apply BitVec.eq_of_toNat_eq
  rw [assemble_toNat, lowLimb_toNat, highLimb_toNat]
  omega

/-- The limbs of a value below 2^256 add up to it. -/
theorem limbs_ofNat (x : Nat) (h : x < 2 ^ 256) :
    (lowLimb (BitVec.ofNat 256 x)).toNat + (highLimb (BitVec.ofNat 256 x)).toNat * 2 ^ 128 = x := by
  rw [← assemble_toNat, assemble_limbs, BitVec.toNat_ofNat, Nat.mod_eq_of_lt h]

theorem operandA_commandOf (op : Opcode) (a b : Word) : operandA (commandOf op a b) = a := assemble_limbs a

theorem operandB_commandOf (op : Opcode) (a b : Word) : operandB (commandOf op a b) = b := assemble_limbs b

/-- A command is given by its `OPC` and its two operands. -/
theorem commandOf_operands (c : Command) : commandOf c.op (operandA c) (operandB c) = c := by
  simp only [commandOf, operandA, operandB, lowLimb_assemble, highLimb_assemble]

end Sys2Proof.Machine
end

