-- ==== Sys2Proof/Laws/State.lean ====
section
/-! SUPPORT. What each shared operation does to each field of the state, and what the accessors of `STATUS` give on a
packed byte. -/

namespace Sys2Proof.Machine

@[simp] theorem writeResult_resLo (r : Word) (sg : Bit) (s : State) : (writeResult r sg s).resLo = lowLimb r := rfl
@[simp] theorem writeResult_resHi (r : Word) (sg : Bit) (s : State) : (writeResult r sg s).resHi = highLimb r := rfl
@[simp] theorem writeResult_sign (r : Word) (sg : Bit) (s : State) : (writeResult r sg s).sign = sg := rfl
@[simp] theorem writeResult_status (r : Word) (sg : Bit) (s : State) : (writeResult r sg s).status = packStatus 0 1 0 := rfl
@[simp] theorem writeResult_pend (r : Word) (sg : Bit) (s : State) : (writeResult r sg s).pend = none := rfl
@[simp] theorem writeResult_rspDone (r : Word) (sg : Bit) (s : State) : (writeResult r sg s).rspDone = 1 := rfl
@[simp] theorem writeResult_edgesLeft (r : Word) (sg : Bit) (s : State) : (writeResult r sg s).edgesLeft = 0 := rfl
@[simp] theorem writeResult_draws (r : Word) (sg : Bit) (s : State) : (writeResult r sg s).draws = s.draws := rfl
@[simp] theorem writeResult_resetSeen (r : Word) (sg : Bit) (s : State) : (writeResult r sg s).resetSeen = s.resetSeen := rfl
@[simp] theorem writeResult_inputs (r : Word) (sg : Bit) (s : State) : (writeResult r sg s).inputs = s.inputs := rfl

@[simp] theorem takeFault_resLo (c : Cause) (s : State) : (takeFault c s).resLo = s.resLo := rfl
@[simp] theorem takeFault_resHi (c : Cause) (s : State) : (takeFault c s).resHi = s.resHi := rfl
@[simp] theorem takeFault_sign (c : Cause) (s : State) : (takeFault c s).sign = s.sign := rfl
@[simp] theorem takeFault_status (c : Cause) (s : State) : (takeFault c s).status = packStatus 0 0 (causeCode c) := rfl
@[simp] theorem takeFault_pend (c : Cause) (s : State) : (takeFault c s).pend = none := rfl
@[simp] theorem takeFault_rspDone (c : Cause) (s : State) : (takeFault c s).rspDone = 1 := rfl
@[simp] theorem takeFault_edgesLeft (c : Cause) (s : State) : (takeFault c s).edgesLeft = 0 := rfl
@[simp] theorem takeFault_draws (c : Cause) (s : State) : (takeFault c s).draws = s.draws := rfl
@[simp] theorem takeFault_resetSeen (c : Cause) (s : State) : (takeFault c s).resetSeen = s.resetSeen := rfl
@[simp] theorem takeFault_inputs (c : Cause) (s : State) : (takeFault c s).inputs = s.inputs := rfl

@[simp] theorem accept_resLo (c : Command) (s : State) : (accept c s).resLo = s.resLo := rfl
@[simp] theorem accept_resHi (c : Command) (s : State) : (accept c s).resHi = s.resHi := rfl
@[simp] theorem accept_sign (c : Command) (s : State) : (accept c s).sign = s.sign := rfl
@[simp] theorem accept_status (c : Command) (s : State) : (accept c s).status = packStatus 1 0 0 := rfl
@[simp] theorem accept_pend (c : Command) (s : State) : (accept c s).pend = some c := rfl
@[simp] theorem accept_rspDone (c : Command) (s : State) : (accept c s).rspDone = s.rspDone := rfl
@[simp] theorem accept_edgesLeft (c : Command) (s : State) : (accept c s).edgesLeft = drawnLatency s c := rfl
@[simp] theorem accept_draws (c : Command) (s : State) : (accept c s).draws = s.draws + 1 := rfl
@[simp] theorem accept_resetSeen (c : Command) (s : State) : (accept c s).resetSeen = s.resetSeen := rfl
@[simp] theorem accept_inputs (c : Command) (s : State) : (accept c s).inputs = s.inputs := rfl

@[simp] theorem resetEdge_resLo (s : State) : (resetEdge s).resLo = 0 := rfl
@[simp] theorem resetEdge_resHi (s : State) : (resetEdge s).resHi = 0 := rfl
@[simp] theorem resetEdge_sign (s : State) : (resetEdge s).sign = 0 := rfl
@[simp] theorem resetEdge_status (s : State) : (resetEdge s).status = packStatus 0 0 0 := rfl
@[simp] theorem resetEdge_pend (s : State) : (resetEdge s).pend = none := rfl
@[simp] theorem resetEdge_rspDone (s : State) : (resetEdge s).rspDone = 0 := rfl
@[simp] theorem resetEdge_edgesLeft (s : State) : (resetEdge s).edgesLeft = 0 := rfl
@[simp] theorem resetEdge_draws (s : State) : (resetEdge s).draws = s.draws := rfl
@[simp] theorem resetEdge_resetSeen (s : State) : (resetEdge s).resetSeen = true := rfl
@[simp] theorem resetEdge_inputs (s : State) : (resetEdge s).inputs = s.inputs := rfl

@[simp] theorem unspecifiedEdge_resLo (s : State) : (unspecifiedEdge s).resLo = Config.unspecifiedResLo s.draws := rfl
@[simp] theorem unspecifiedEdge_resHi (s : State) : (unspecifiedEdge s).resHi = Config.unspecifiedResHi s.draws := rfl
@[simp] theorem unspecifiedEdge_sign (s : State) : (unspecifiedEdge s).sign = Config.unspecifiedSign s.draws := rfl
@[simp] theorem unspecifiedEdge_status (s : State) : (unspecifiedEdge s).status = Config.unspecifiedStatus s.draws := rfl
@[simp] theorem unspecifiedEdge_pend (s : State) : (unspecifiedEdge s).pend = Config.unspecifiedPend s.draws := rfl
@[simp] theorem unspecifiedEdge_rspDone (s : State) : (unspecifiedEdge s).rspDone = Config.unspecifiedDone s.draws := rfl
@[simp] theorem unspecifiedEdge_edgesLeft (s : State) : (unspecifiedEdge s).edgesLeft = Config.unspecifiedEdgesLeft s.draws := rfl
@[simp] theorem unspecifiedEdge_draws (s : State) : (unspecifiedEdge s).draws = s.draws + 1 := rfl
@[simp] theorem unspecifiedEdge_resetSeen (s : State) : (unspecifiedEdge s).resetSeen = s.resetSeen := rfl
@[simp] theorem unspecifiedEdge_inputs (s : State) : (unspecifiedEdge s).inputs = s.inputs := rfl

@[simp] theorem clockTick_resLo (s : State) : (clockTick s).resLo = s.resLo := rfl
@[simp] theorem clockTick_resHi (s : State) : (clockTick s).resHi = s.resHi := rfl
@[simp] theorem clockTick_sign (s : State) : (clockTick s).sign = s.sign := rfl
@[simp] theorem clockTick_status (s : State) : (clockTick s).status = s.status := rfl
@[simp] theorem clockTick_pend (s : State) : (clockTick s).pend = s.pend := rfl
@[simp] theorem clockTick_rspDone (s : State) : (clockTick s).rspDone = 0 := rfl
@[simp] theorem clockTick_edgesLeft (s : State) : (clockTick s).edgesLeft = s.edgesLeft := rfl
@[simp] theorem clockTick_draws (s : State) : (clockTick s).draws = s.draws := rfl
@[simp] theorem clockTick_resetSeen (s : State) : (clockTick s).resetSeen = s.resetSeen := rfl
@[simp] theorem clockTick_inputs (s : State) : (clockTick s).inputs = s.inputs.tail := rfl

@[simp] theorem countEdge_resLo (s : State) : (countEdge s).resLo = s.resLo := rfl
@[simp] theorem countEdge_resHi (s : State) : (countEdge s).resHi = s.resHi := rfl
@[simp] theorem countEdge_sign (s : State) : (countEdge s).sign = s.sign := rfl
@[simp] theorem countEdge_status (s : State) : (countEdge s).status = s.status := rfl
@[simp] theorem countEdge_pend (s : State) : (countEdge s).pend = s.pend := rfl
@[simp] theorem countEdge_rspDone (s : State) : (countEdge s).rspDone = s.rspDone := rfl
@[simp] theorem countEdge_edgesLeft (s : State) : (countEdge s).edgesLeft = s.edgesLeft - 1 := rfl
@[simp] theorem countEdge_draws (s : State) : (countEdge s).draws = s.draws := rfl
@[simp] theorem countEdge_resetSeen (s : State) : (countEdge s).resetSeen = s.resetSeen := rfl
@[simp] theorem countEdge_inputs (s : State) : (countEdge s).inputs = s.inputs := rfl

@[simp] theorem placeCommand_resLo (c : Command) (s : State) : (placeCommand c s).resLo = s.resLo := rfl
@[simp] theorem placeCommand_resHi (c : Command) (s : State) : (placeCommand c s).resHi = s.resHi := rfl
@[simp] theorem placeCommand_sign (c : Command) (s : State) : (placeCommand c s).sign = s.sign := rfl
@[simp] theorem placeCommand_status (c : Command) (s : State) : (placeCommand c s).status = packStatus 1 0 0 := rfl
@[simp] theorem placeCommand_pend (c : Command) (s : State) : (placeCommand c s).pend = some c := rfl
@[simp] theorem placeCommand_rspDone (c : Command) (s : State) : (placeCommand c s).rspDone = s.rspDone := rfl
@[simp] theorem placeCommand_edgesLeft (c : Command) (s : State) : (placeCommand c s).edgesLeft = 1 := rfl
@[simp] theorem placeCommand_draws (c : Command) (s : State) : (placeCommand c s).draws = s.draws := rfl
@[simp] theorem placeCommand_resetSeen (c : Command) (s : State) : (placeCommand c s).resetSeen = true := rfl
@[simp] theorem placeCommand_inputs (c : Command) (s : State) : (placeCommand c s).inputs = PinSample.idle :: s.inputs := rfl

/-! `STATUS` (R16) -/

@[simp] theorem packStatus_cause (b v : Bit) (c : BitVec 4) : causeField (packStatus b v c) = c := by
  revert b v c; decide

@[simp] theorem packStatus_valid (b v : Bit) (c : BitVec 4) : validField (packStatus b v c) = v := by
  revert b v c; decide

@[simp] theorem packStatus_busy (b v : Bit) (c : BitVec 4) : busyField (packStatus b v c) = b := by
  revert b v c; decide

@[simp] theorem packStatus_reserved (b v : Bit) (c : BitVec 4) : reservedField (packStatus b v c) = 0 := by
  revert b v c; decide

/-- A packed byte with the fields of a `STATUS` byte whose reserved bits are 0 is that byte. -/
theorem packStatus_fields (st : BitVec 8) (h : reservedField st = 0) :
    packStatus (busyField st) (validField st) (causeField st) = st := by
  revert st; decide

/-- A one-bit value is 0 or 1. -/
theorem bit_cases (b : Bit) : b = 0 ∨ b = 1 := by revert b; decide

end Sys2Proof.Machine
end

