-- ==== Sys2Proof/Laws/Ops.lean ====
section
/-! SUPPORT. What each shared operation can do, said once: `check256` (R63), a completion (R20, R62), the completion of
each operation, and the completion of a pending command. -/

namespace Sys2Proof.Machine

/-- `check256` below 2^256: the command goes on with the exact value. -/
theorem check256_inRange (x : Nat) (k : Word → CmdOutcome) (h : x < 2 ^ 256) :
    check256 x k = k (BitVec.ofNat 256 x) := by
  simp only [check256, if_neg (Nat.not_le.mpr h)]

/-- `check256` at or above 2^256: Overflow. -/
theorem check256_outOfRange (x : Nat) (k : Word → CmdOutcome) (h : 2 ^ 256 ≤ x) :
    check256 x k = .raised .overflow := by
  simp only [check256, if_pos h]

/-- A completion with a result in range, in the terms of claims (R20). -/
theorem complete_result (x : Nat) (sg : Bit) (s : State) (h : x < 2 ^ 256) :
    CompletesWith s (complete (.result (BitVec.ofNat 256 x) sg) s) x sg where
  res := limbs_ofNat x h
  sign := rfl
  cause := packStatus_cause 0 1 0
  valid := packStatus_valid 0 1 0
  busy := packStatus_busy 0 1 0
  reserved := packStatus_reserved 0 1 0
  pend := rfl
  done := rfl
  edgesLeft := rfl
  inputs := rfl
  draws := rfl
  resetSeen := rfl

/-- A completion with a fault, in the terms of claims (R20, R62). -/
theorem complete_raised (c : Cause) (s : State) : FaultsWith s (complete (.raised c) s) (causeCode c) where
  resLo := rfl
  resHi := rfl
  sign := rfl
  cause := packStatus_cause 0 0 (causeCode c)
  valid := packStatus_valid 0 0 (causeCode c)
  busy := packStatus_busy 0 0 (causeCode c)
  reserved := packStatus_reserved 0 0 (causeCode c)
  pend := rfl
  done := rfl
  edgesLeft := rfl
  inputs := rfl
  draws := rfl
  resetSeen := rfl

@[simp] theorem exec_floorIntermediate (a : Word) (s : State) :
    exec (.floorIntermediate a) s = .next (complete (evalFloorIntermediate a) s) := rfl

@[simp] theorem exec_floor (a : Word) (s : State) : exec (.floor a) s = .next (complete (evalFloor a) s) := rfl

@[simp] theorem exec_halfScaling (a : Word) (s : State) :
    exec (.halfScaling a) s = .next (complete (evalHalfScaling a) s) := rfl

@[simp] theorem exec_doubleScaling (a : Word) (s : State) :
    exec (.doubleScaling a) s = .next (complete (evalDoubleScaling a) s) := rfl

@[simp] theorem exec_add (a b : Word) (s : State) : exec (.add a b) s = .next (complete (evalAdd a b) s) := rfl

@[simp] theorem exec_sub (a b : Word) (s : State) : exec (.sub a b) s = .next (complete (evalSub a b) s) := rfl

@[simp] theorem exec_diffAndSign (a b : Word) (s : State) :
    exec (.diffAndSign a b) s = .next (complete (evalDiffAndSign a b) s) := rfl

@[simp] theorem exec_mul (a b : Word) (s : State) : exec (.mul a b) s = .next (complete (evalMul a b) s) := rfl

@[simp] theorem exec_div (a b : Word) (s : State) : exec (.div a b) s = .next (complete (evalDiv a b) s) := rfl

/-- An `OPC` is one of the nine of R38, or the decoder rejects every command with it. -/
theorem opcode_cases (op : Opcode) :
    op = 0x01#8 ∨ op = 0x02#8 ∨ op = 0x03#8 ∨ op = 0x04#8 ∨ op = 0x05#8 ∨ op = 0x06#8 ∨ op = 0x07#8 ∨ op = 0x08#8 ∨
      op = 0x09#8 ∨ (op = 0x00#8 ∨ 0x0A ≤ op.toNat) := by
  revert op; decide

/-- An `OPC` from 0x0A on is none of the nine of R38. -/
theorem evalCommand_illegal (op : Opcode) (a b : Word) (h : op = 0x00#8 ∨ 0x0A ≤ op.toNat) :
    evalCommand op a b = .raised .illegalOpcode := by
  have hne : ∀ k : Nat, 0 < k → k < 0x0A → op ≠ BitVec.ofNat 8 k := by
    rintro k h0 hk rfl
    simp only [← BitVec.toNat_inj, BitVec.toNat_ofNat] at h
    omega
  simp [evalCommand, hne 1, hne 2, hne 3, hne 4, hne 5, hne 6, hne 7, hne 8, hne 9]

/-- The decoder rejects an `OPC` that is none of the nine of R38. -/
theorem decode_illegal (c : Command) (h : c.op = 0x00#8 ∨ 0x0A ≤ c.op.toNat) : ∃ e, decode c = .error e := by
  unfold decode
  split <;> first | exact ⟨_, rfl⟩ | (rcases h with h | h <;> simp_all)

/-- Decoding and then running a pending command is `Exec` of R10, completed. -/
theorem runCommand_eq (c : Command) (s : State) :
    runCommand c s = .next (complete (evalCommand c.op (operandA c) (operandB c)) s) := by
  rcases opcode_cases c.op with h | h | h | h | h | h | h | h | h | h
  iterate 9 simp [runCommand, decode, evalCommand, h]
  obtain ⟨e, he⟩ := decode_illegal c h
  simp only [runCommand, he, evalCommand_illegal _ _ _ h, complete]

end Sys2Proof.Machine
end

