-- ==== Sys2Proof/Laws/PerInstr.lean ====
section
/-! SUPPORT. The encoding of each operation, as syntax (R36, R38, R42): its command word is its row of the opcode
table, the command is well formed, and a unary operation has B = 0. -/

namespace Sys2Proof.Laws.Encoding

/-- The operation's row of the opcode map (R38), counted from 0x01 in the order of the table. -/
def row : Instr → Nat
  | .floorIntermediate _ => 1
  | .floor _ => 2
  | .halfScaling _ => 3
  | .doubleScaling _ => 4
  | .add _ _ => 5
  | .sub _ _ => 6
  | .diffAndSign _ _ => 7
  | .mul _ _ => 8
  | .div _ _ => 9

/-- The encoding has the row's `OPC`, passes every check, and is written as R42 writes it. -/
def Statement (i : Instr) : Prop :=
  (encode i).op.toNat = row i ∧ (encode i).wellFormed = true ∧ (encode i).canonical = encode i

/-- A unary operation's command has zero limbs on the B ports (R42). -/
theorem canonical_of_zeroB (op : Opcode) (a : Word) :
    (Sys2Proof.Machine.commandOf op a 0).canonical = Sys2Proof.Machine.commandOf op a 0 := by
  have hl : Sys2Proof.Machine.lowLimb 0 = 0 := by decide
  have hh : Sys2Proof.Machine.highLimb 0 = 0 := by decide
  unfold Command.canonical
  split
  · simp only [Sys2Proof.Machine.commandOf, hl, hh]
  · rfl

theorem floorIntermediate (a : Word) : Statement (.floorIntermediate a) := ⟨rfl, rfl, canonical_of_zeroB _ a⟩
theorem floor (a : Word) : Statement (.floor a) := ⟨rfl, rfl, canonical_of_zeroB _ a⟩
theorem halfScaling (a : Word) : Statement (.halfScaling a) := ⟨rfl, rfl, canonical_of_zeroB _ a⟩
theorem doubleScaling (a : Word) : Statement (.doubleScaling a) := ⟨rfl, rfl, canonical_of_zeroB _ a⟩
theorem add (a b : Word) : Statement (.add a b) := ⟨rfl, rfl, rfl⟩
theorem sub (a b : Word) : Statement (.sub a b) := ⟨rfl, rfl, rfl⟩
theorem diffAndSign (a b : Word) : Statement (.diffAndSign a b) := ⟨rfl, rfl, rfl⟩
theorem mul (a b : Word) : Statement (.mul a b) := ⟨rfl, rfl, rfl⟩
theorem div (a b : Word) : Statement (.div a b) := ⟨rfl, rfl, rfl⟩

end Sys2Proof.Laws.Encoding
end

