-- ==== Sys2Proof/Laws/Step.lean ====
section
/-! SUPPORT. Everything one rising edge can do, said once: the equation of each kind of edge, and the inversion of a
step that answers a next state. -/

namespace Sys2Proof.Machine

/-- A reset edge, in every state (R77, R80). -/
theorem step_reset (s : State) (h : (pinsAt s 0).rst = 1) : step s = .next (resetEdge (clockTick s)) := by
  simp only [step, clockEdge, if_pos h]

theorem step_beforeReset (s : State) (h : (pinsAt s 0).rst = 0) (hr : s.resetSeen = false) :
    step s = beforeResetEdge (pinsAt s 0) (clockTick s) := by
  simp [step, clockEdge, h, hr]

/-- An acceptance edge (R19). -/
theorem step_accept (s : State) (h : (pinsAt s 0).rst = 0) (hr : s.resetSeen = true) (hb : busyField s.status = 0)
    (hv : (pinsAt s 0).reqValid = 1) : step s = .next (accept (pinsAt s 0).cmd (clockTick s)) := by
  simp [step, clockEdge, idleEdge, h, hr, hb, hv]

/-- An edge at which the block stays idle (R76). -/
theorem step_idle (s : State) (h : (pinsAt s 0).rst = 0) (hr : s.resetSeen = true) (hb : busyField s.status = 0)
    (hv : (pinsAt s 0).reqValid = 0) : step s = .next (clockTick s) := by
  simp [step, clockEdge, idleEdge, h, hr, hb, hv]

/-- `BUSY = 1` with an empty `PEND`: nothing completes and nothing is accepted. -/
theorem step_busyEmpty (s : State) (h : (pinsAt s 0).rst = 0) (hr : s.resetSeen = true) (hb : busyField s.status = 1)
    (hp : s.pend = none) : step s = .next (clockTick s) := by
  simp [step, clockEdge, pendingEdge, h, hr, hb, hp]

/-- An edge before the completion edge of the pending command (R20). -/
theorem step_count (s : State) (c : Command) (h : (pinsAt s 0).rst = 0) (hr : s.resetSeen = true)
    (hb : busyField s.status = 1) (hp : s.pend = some c) (he : 1 < s.edgesLeft) :
    step s = .next (countEdge (clockTick s)) := by
  simp [step, clockEdge, pendingEdge, h, hr, hb, hp, Nat.not_le.mpr he]

/-- The completion edge of the pending command (R20), as the decoder and the dispatch run it. -/
theorem step_run (s : State) (c : Command) (h : (pinsAt s 0).rst = 0) (hr : s.resetSeen = true)
    (hb : busyField s.status = 1) (hp : s.pend = some c) (he : s.edgesLeft ≤ 1) :
    step s = runCommand c (clockTick s) := by
  simp [step, clockEdge, pendingEdge, h, hr, hb, hp, he]

/-- Every step that answers a next state is one of seven edges. -/
theorem step_cases (s t : State) (h : step s = .next t) :
    ((pinsAt s 0).rst = 1 ∧ t = resetEdge (clockTick s)) ∨
    ((pinsAt s 0).rst = 0 ∧ s.resetSeen = false ∧ (pinsAt s 0).reqValid = 0 ∧ t = unspecifiedEdge (clockTick s)) ∨
    ((pinsAt s 0).rst = 0 ∧ s.resetSeen = true ∧ busyField s.status = 0 ∧ (pinsAt s 0).reqValid = 1 ∧
      t = accept (pinsAt s 0).cmd (clockTick s)) ∨
    ((pinsAt s 0).rst = 0 ∧ s.resetSeen = true ∧ busyField s.status = 0 ∧ (pinsAt s 0).reqValid = 0 ∧
      t = clockTick s) ∨
    ((pinsAt s 0).rst = 0 ∧ s.resetSeen = true ∧ busyField s.status = 1 ∧ s.pend = none ∧ t = clockTick s) ∨
    (∃ c, (pinsAt s 0).rst = 0 ∧ s.resetSeen = true ∧ busyField s.status = 1 ∧ s.pend = some c ∧ 1 < s.edgesLeft ∧
      t = countEdge (clockTick s)) ∨
    (∃ c, (pinsAt s 0).rst = 0 ∧ s.resetSeen = true ∧ busyField s.status = 1 ∧ s.pend = some c ∧ s.edgesLeft ≤ 1 ∧
      t = complete (evalCommand c.op (operandA c) (operandB c)) (clockTick s)) := by
  rcases bit_cases (pinsAt s 0).rst with hz | ho
  · cases hr : s.resetSeen with
    | false =>
      rw [step_beforeReset s hz hr, beforeResetEdge] at h
      rcases bit_cases (pinsAt s 0).reqValid with hv | hv <;> simp [hv] at h
      exact .inr (.inl ⟨hz, rfl, hv, h.symm⟩)
    | true =>
      rcases bit_cases (busyField s.status) with hb | hb
      · rcases bit_cases (pinsAt s 0).reqValid with hv | hv
        · rw [step_idle s hz hr hb hv] at h
          injection h with h
          exact .inr (.inr (.inr (.inl ⟨hz, rfl, hb, hv, h.symm⟩)))
        · rw [step_accept s hz hr hb hv] at h
          injection h with h
          exact .inr (.inr (.inl ⟨hz, rfl, hb, hv, h.symm⟩))
      · cases hp : s.pend with
        | none =>
          rw [step_busyEmpty s hz hr hb hp] at h
          injection h with h
          exact .inr (.inr (.inr (.inr (.inl ⟨hz, rfl, hb, rfl, h.symm⟩))))
        | some c =>
          rcases Nat.lt_or_ge 1 s.edgesLeft with he | he
          · rw [step_count s c hz hr hb hp he] at h
            injection h with h
            exact .inr (.inr (.inr (.inr (.inr (.inl ⟨c, hz, rfl, hb, rfl, he, h.symm⟩)))))
          · rw [step_run s c hz hr hb hp he, runCommand_eq] at h
            injection h with h
            exact .inr (.inr (.inr (.inr (.inr (.inr ⟨c, hz, rfl, hb, rfl, he, h.symm⟩)))))
  · rw [step_reset s ho] at h
    injection h with h
    exact .inl ⟨ho, h.symm⟩

/-- After the first reset edge, every step answers a next state. -/
theorem step_next (s : State) (hr : s.resetSeen = true) : ∃ t, step s = .next t := by
  rcases bit_cases (pinsAt s 0).rst with hz | ho
  · rcases bit_cases (busyField s.status) with hb | hb
    · rcases bit_cases (pinsAt s 0).reqValid with hv | hv
      · exact ⟨_, step_idle s hz hr hb hv⟩
      · exact ⟨_, step_accept s hz hr hb hv⟩
    · cases hp : s.pend with
      | none => exact ⟨_, step_busyEmpty s hz hr hb hp⟩
      | some c =>
        rcases Nat.lt_or_ge 1 s.edgesLeft with he | he
        · exact ⟨_, step_count s c hz hr hb hp he⟩
        · exact ⟨_, (step_run s c hz hr hb hp he).trans (runCommand_eq c _)⟩
  · exact ⟨_, step_reset s ho⟩

/-- The pins of an edge after the next one are the pins of the state after it. -/
theorem pinsAt_clockTick (s : State) (n : Nat) : pinsAt (clockTick s) n = pinsAt s (n + 1) := by
  cases h : s.inputs <;> simp [pinsAt, h]

/-- Runs of edges, one edge at a time. -/
theorem runsTo_zero (s t : State) : RunsTo 0 s t ↔ s = t :=
  ⟨fun h => Host.Outcome.next.inj h, fun h => congrArg Host.Outcome.next h⟩

theorem runsTo_succ (n : Nat) (s u : State) (h : step s = .next u) (t : State) : RunsTo (n + 1) s t ↔ RunsTo n u t := by
  have : Sys2Proof.core.step s = .next u := h
  simp [RunsTo, Host.Core.run, this]

/-- One edge is a run of one edge. -/
theorem runsTo_one (s u : State) (h : step s = .next u) : RunsTo 1 s u :=
  (runsTo_succ 0 s u h u).2 ((runsTo_zero u u).2 rfl)

/-- A run after a run is a run. -/
theorem runsTo_add (n m : Nat) (s t u : State) (h : RunsTo n s t) (h' : RunsTo m t u) : RunsTo (n + m) s u := by
  induction n generalizing s with
  | zero => rw [runsTo_zero] at h; rw [Nat.zero_add, h]; exact h'
  | succ n ih =>
    have hc : Sys2Proof.core.step s = step s := rfl
    cases hs : step s with
    | next v =>
      rw [Nat.add_right_comm, runsTo_succ _ s v hs]
      exact ih v ((runsTo_succ n s v hs t).1 h)
    | fault r => simp [RunsTo, Host.Core.run, hc, hs] at h
    | refused r => simp [RunsTo, Host.Core.run, hc, hs] at h

end Sys2Proof.Machine
end

