-- ==== Sys2Proof/Tests/Slice0.lean ====
section
/-! SUPPORT. Tests, each about one step or one function on small data, with expected results from spec/95_test_vectors.md
(V and section numbers) or from the rules' own examples; then, for every obligation with hypotheses, a witness that
meets them, at boundary values where clauses meet. -/

namespace Sys2Proof.Tests
open Sys2Proof.Machine

/-! Helpers -/

/-- 2^256 − 1 -/
def maxv : Word := 0xffffffffffffffffffffffffffffffffffffffffffffffffffffffffffffffff#256

/-- `T` = MAXV // 10^18 -/
def thresholdT : Word := 115792089237316195423570985008687907853269984665640564039457#256

/-- The state after reset with a command pending that completes at the next edge. -/
def pendingState (op : Opcode) (a b : Word) : State :=
  { State.reset with status := 0x20, pend := some (commandOf op a b), edgesLeft := 1 }

/-- The state after reset with the host presenting a command at the next edge. -/
def requestState (op : Opcode) (a b : Word) : State :=
  { State.reset with inputs := [{ rst := 0, reqValid := 1, cmd := commandOf op a b }] }

/-- The result limbs, sign, `STATUS` and `rsp_done` of a next state. -/
def shown : Host.Outcome State Fault Refusal → Option (Limb × Limb × Bit × BitVec 8 × Bit)
  | .next s => some (s.resHi, s.resLo, s.sign, s.status, s.rspDone)
  | .fault _ => none
  | .refused _ => none

/-- Shown after a command completes with the result `hi`, `lo` and sign `sg`. -/
def resultShown (hi lo : Limb) (sg : Bit) : Option (Limb × Limb × Bit × BitVec 8 × Bit) := some (hi, lo, sg, 0x10, 1)

/-- Shown after a command faults with `code` from the reset registers. -/
def faultShown (code : BitVec 8) : Option (Limb × Limb × Bit × BitVec 8 × Bit) := some (0, 0, 0, code, 1)

/-- The state after reset but for its `STATUS` byte, in the cycle after a completion. -/
def doneState (st : BitVec 8) : State := { State.reset with status := st, rspDone := 1 }

/-! Constants (R5, R6) -/

theorem test_scale_square : Config.halfScale * Config.halfScale = Config.scale := by decide
theorem test_scale_hex : Config.scale = 0x0DE0B6B3A7640000 ∧ Config.halfScale = 0x3B9ACA00 := by decide
theorem test_threshold : Config.scaleThreshold = thresholdT.toNat := by decide
theorem test_oneOutstanding (s : State) : s.pend.toList.length ≤ Config.maxOutstanding := by
  cases h : s.pend <;> simp [Config.maxOutstanding]

/-! Decoding, by the words of R38; and the ill-formed commands of each check (R39) -/

theorem test_decode_floorIntermediate : decodeTableWord 8 0b00000001 = some (.floorIntermediate 0) := by decide
theorem test_decode_floor : decodeTableWord 8 0b00000010 = some (.floor 0) := by decide
theorem test_decode_halfScaling : decodeTableWord 8 0b00000011 = some (.halfScaling 0) := by decide
theorem test_decode_doubleScaling : decodeTableWord 8 0b00000100 = some (.doubleScaling 0) := by decide
theorem test_decode_add : decodeTableWord 8 0b00000101 = some (.add 0 0) := by decide
theorem test_decode_sub : decodeTableWord 8 0b00000110 = some (.sub 0 0) := by decide
theorem test_decode_diffAndSign : decodeTableWord 8 0b00000111 = some (.diffAndSign 0 0) := by decide
theorem test_decode_mul : decodeTableWord 8 0b00001000 = some (.mul 0 0) := by decide
theorem test_decode_div : decodeTableWord 8 0b00001001 = some (.div 0 0) := by decide

/-- The operands come from their own ports, low limb first (R37). -/
theorem test_decode_operands : (decode ⟨0x06, 1, 2, 3, 4⟩).toOption =
    some (.sub 0x00000000000000000000000000000002_00000000000000000000000000000001#256
      0x00000000000000000000000000000004_00000000000000000000000000000003#256) := by decide

theorem test_decode_names_rejections :
    (decode ⟨0x00, 1, 1, 1, 1⟩).toOption = none ∧ (decode ⟨0x15, 1, 0, 1, 0⟩).toOption = none := by decide

theorem test_illFormed_zeroOpcode : (⟨0x00, 5, 0, 7, 0⟩ : Command).namesSomething = false ∧
    (⟨0x00, 5, 0, 7, 0⟩ : Command).wellFormed = false := by decide
theorem test_illFormed_boundedPow : (⟨0x0A, 5, 0, 7, 0⟩ : Command).notBoundedPow = false ∧
    (⟨0x0A, 5, 0, 7, 0⟩ : Command).wellFormed = false := by decide
theorem test_illFormed_unassigned : (⟨0x0B, 0, 0, 0, 0⟩ : Command).assigned = false ∧
    (⟨0x0B, 0, 0, 0, 0⟩ : Command).wellFormed = false := by decide
theorem test_notCanonical : (⟨0x02, 1, 0, 9, 0⟩ : Command).canonical ≠ ⟨0x02, 1, 0, 9, 0⟩ := by decide

/-! One completion edge each -/

/-- V4 -/
theorem test_floorIntermediate_max : shown (step (pendingState 0x01 maxv 0)) =
    resultShown 0x0000000000000012725dd1d243aba0e7 0x5fe645cc4873f9e65afe688c928e1f21 0 := by decide
/-- V19: B is ignored -/
theorem test_floorIntermediate_ignoresB : shown (step (pendingState 0x01 1000000000000000000 0x3039)) =
    resultShown 0 1 0 := by decide
/-- V9 -/
theorem test_floor_max : shown (step (pendingState 0x02 maxv 0)) =
    resultShown 0xffffffffffffffffffffffffffffffff 0xfffffffffffffffff7e52fe5afe40000 0 := by decide
/-- V7 -/
theorem test_floor_fraction : shown (step (pendingState 0x02 1500000000000000000 0)) =
    resultShown 0 0x0de0b6b3a7640000 0 := by decide
/-- V13 -/
theorem test_halfScaling_max : shown (step (pendingState 0x03 maxv 0)) =
    resultShown 0x000000044b82fa09b5a52cb98b405447 0xc4a98187eebb22f008d5d64f9c394ae9 0 := by decide
/-- source §8 scenario 3 -/
theorem test_halfScaling_source : shown (step (pendingState 0x03 2345152673865427896541 0)) =
    resultShown 0 2345152673865 0 := by decide
/-- V16 -/
theorem test_doubleScaling_threshold : shown (step (pendingState 0x04 thresholdT 0)) =
    resultShown 0xffffffffffffffffffffffffffffffff 0xfffffffffffffffff7e52fe5afe40000 0 := by decide
/-- V17 -/
theorem test_doubleScaling_overflow : shown (step (pendingState 0x04 (thresholdT + 1) 0)) = faultShown 0x01 := by decide
/-- V21 -/
theorem test_add_carry : shown (step (pendingState 0x05 0xffffffffffffffffffffffffffffffff 1)) =
    resultShown 1 0 0 := by decide
/-- V23 -/
theorem test_add_overflow : shown (step (pendingState 0x05 maxv 1)) = faultShown 0x01 := by decide
/-- V28 -/
theorem test_sub_borrow : shown (step (pendingState 0x06 0x100000000000000000000000000000000 1)) =
    resultShown 0 0xffffffffffffffffffffffffffffffff 0 := by decide
/-- V33 -/
theorem test_sub_underflow : shown (step (pendingState 0x06 0x100000000000000000000000000000000
    0x100000000000000000000000000000001)) = faultShown 0x02 := by decide
/-- V40 -/
theorem test_diffAndSign_highLimbs : shown (step (pendingState 0x07 0xffffffffffffffffffffffffffffffff
    0x100000000000000000000000000000000)) = resultShown 0 1 1 := by decide
/-- V36 -/
theorem test_diffAndSign_equal : shown (step (pendingState 0x07 7 7)) = resultShown 0 0 0 := by decide
/-- V46 -/
theorem test_mul_doubleTruncation : shown (step (pendingState 0x08 1999999999 1999999999)) =
    resultShown 0 1 0 := by decide
/-- V49 -/
theorem test_mul_overflow : shown (step (pendingState 0x08 340282366920938463463374607431768211456000000000
    340282366920938463463374607431768211456000000000)) = faultShown 0x01 := by decide
/-- source §8 scenario 8 -/
theorem test_div_source : shown (step (pendingState 0x09 2345152673865427896541 768102938476645378273)) =
    resultShown 0 3053174980057355480 0 := by decide
/-- V58: both faults apply, DivisionByZero wins -/
theorem test_div_priority : shown (step (pendingState 0x09 (thresholdT + 1) 0)) = faultShown 0x03 := by decide
/-- V65, V68 -/
theorem test_illegalOpcodes : shown (step (pendingState 0x0A 1000000000000000000 1000000000000000000)) =
    faultShown 0x05 ∧ shown (step (pendingState 0xFF maxv maxv)) = faultShown 0x05 := by decide

/-- 95, 3.1 step 5: a fault leaves RES and SIGN unchanged. -/
theorem test_fault_keepsResult : shown (step { pendingState 0x06 0 1 with resLo := 2, sign := 1 }) =
    some (0, 2, 1, 0x02, 1) := by decide

/-- The first step after reset with a table word placed runs it, on operands of zeros: 0 // SCALE, and 0 / 0
(V1, V57). -/
theorem test_fetchWord : shown (step (State.reset.withFetchWord 8 0x01)) = resultShown 0 0 0 ∧
    shown (step (State.reset.withFetchWord 8 0x09)) = faultShown 0x03 := by decide

/-! Acceptance, reset, waiting, power-on -/

/-- 95, 3.1 step 4: acceptance shows STATUS 0x20 and keeps RES and SIGN. -/
theorem test_accept : shown (step { requestState 0x06 0 1 with resLo := 2, sign := 1, status := 0x10 }) =
    some (0, 2, 1, 0x20, 0) := by decide
/-- 95, 3.2 step 5: a reset edge discards the pending DIV by zero and clears the earlier result. -/
theorem test_reset_beatsCompletion : shown (step { pendingState 0x09 1000000000000000000 0 with
    resLo := 2000000000000000000, inputs := [{ rst := 1, reqValid := 1, cmd := ⟨0x05, 1, 0, 1, 0⟩ }] }) =
    some (0, 0, 0, 0x00, 0) := by decide
/-- 95, cycle-level corner case: with edges to go, a request held while BUSY = 1 is not accepted and changes nothing. -/
theorem test_requestWhileBusy : shown (step { pendingState 0x05 1 1 with
    edgesLeft := 2, inputs := [{ rst := 0, reqValid := 1, cmd := ⟨0x06, 9, 9, 9, 9⟩ }] }) =
    some (0, 0, 0, 0x20, 0) := by decide
/-- U8: a command before any reset is refused. -/
theorem test_commandBeforeReset : shown (step { requestState 0x05 1 1 with resetSeen := false }) = none := by decide
/-- R82: the stale value is no result. -/
theorem test_read_afterFault : (readResult { State.reset with resLo := 2, status := 0x02 }).toOption = none ∧
    (readResult { State.reset with resLo := 2, sign := 1, status := 0x10 }).toOption = some (2, 1) := by decide

/-! Assembler text (R42, R36, 95 sections 2 and 4) -/

/-- An alias in lower case, two operands, a comment. -/
theorem test_assemble_alias : (assembleLine [] "diff_and_sign 3, 5 ; sign 1".toList).toOption =
    some ⟨0x07, 3, 0, 5, 0⟩ := by decide
/-- A unary operation, a hexadecimal literal; a host variable; a wrong operand count. -/
theorem test_assemble_unary : (assembleLine [] "FLOOR 0x14d1120d7b160000".toList).toOption =
    some ⟨0x02, 1500000000000000000, 0, 0, 0⟩ := by decide
theorem test_assemble_variable : (assembleLine [("x".toList, 7#256)] "SUB x, 3".toList).toOption =
    some ⟨0x06, 7, 0, 3, 0⟩ ∧ (assembleLine [] "ADD 1".toList).toOption = none := by decide
/-- The start of the listing forms of V27 and V68 (letter case: log entry 9), and a result limb's digits (source §8
scenario 1). -/
theorem test_listingForm : (listingForm ⟨0x06, 5, 0, 3, 0⟩).take 15 = "OPC=0x06 A=0x00".toList ∧
    (listingForm (commandOf 0xFF maxv maxv)).take 15 = "OPC=0xFF A=0xff".toList ∧
    hexDigits 4 2345 = "0929".toList := by decide
theorem test_outcomeText : outcomeText (.raised .underflow) = "-> fault Underflow".toList ∧
    outcomeText (.result 2 1) = "-> (2, 1)".toList := by decide

/-! Witnesses: states and operands that meet the hypotheses of each obligation -/

/-- Every command can be pending and about to complete. -/
theorem pendingState_completes (op : Opcode) (a b : Word) :
    CompletesNext (commandOf op a b) (pendingState op a b) :=
  ⟨rfl, rfl, (by decide : busyField 0x20#8 = 1), rfl, Nat.le_refl 1⟩

/-- Every command can be presented and accepted. -/
theorem requestState_accepts (op : Opcode) (a b : Word) : AcceptsNext (commandOf op a b) (requestState op a b) :=
  ⟨rfl, rfl, rfl, rfl, (by decide : (if (0#1 = 0 ∧ busyField 0x00#8 = 0) then 1#1 else 0#1) = 1)⟩

/-- One command for each row of the opcode map. -/
theorem witness_OpcodeMapSelectsOperation :
    ∀ op ∈ [0x01#8, 0x02#8, 0x03#8, 0x04#8, 0x05#8, 0x06#8, 0x07#8, 0x08#8, 0x09#8], (commandOf op maxv maxv).op = op :=
  fun _ _ => rfl

theorem witness_OperandsAssembleFromLimbs :
    (commandOf 0x01 maxv 0).wellFormed = true ∧ (commandOf 0x09 maxv maxv).wellFormed = true := by decide

theorem witness_EncodeOfDecode : (decode (commandOf 0x04 1 7)).toOption = some (.doubleScaling 1) ∧
    (decode (commandOf 0x05 1 7)).toOption = some (.add 1 7) := by decide

/-- Opcodes at both ends of the illegal range, each accepted and each completing. -/
theorem witness_IllegalOpcodesFault : ∀ op ∈ [0x00#8, 0x0A#8, 0xFF#8],
    (op = 0x00#8 ∨ 0x0A ≤ op.toNat) ∧ AcceptsNext (commandOf op maxv 0) (requestState op maxv 0) ∧
      CompletesNext (commandOf op maxv 0) (pendingState op maxv 0) := by
  intro op h
  refine ⟨?_, requestState_accepts _ _ _, pendingState_completes _ _ _⟩
  revert op
  decide

theorem witness_UnaryOperationsIgnoreB : ∀ op ∈ [0x01#8, 0x04#8],
    0x01 ≤ op.toNat ∧ op.toNat ≤ 0x04 ∧ AcceptsNext (commandOf op 1 7) (requestState op 1 7) ∧
      CompletesNext (commandOf op 1 7) (pendingState op 1 7) := by
  intro op h
  have hop : 0x01 ≤ op.toNat ∧ op.toNat ≤ 0x04 := by
    revert op
    decide
  exact ⟨hop.1, hop.2, requestState_accepts _ _ _, pendingState_completes _ _ _⟩

/-- A line that assembles; operand texts, a literal and a host variable, with a value; and a lower-case mnemonic of each
list. -/
theorem witness_AssembledLinesAreCanonicalCommands :
    assembleLine [] "DIV 1, 2".toList = .ok ⟨0x09, 1, 0, 2, 0⟩ ∧
    (OperandToken "0x1f".toList ∧ operandValue [("x".toList, 7#256)] "0x1f".toList = some 31#256) ∧
    (OperandToken "x".toList ∧ operandValue [("x".toList, 7#256)] "x".toList = some 7#256) ∧
    "half_scaling".toList.map Char.toUpper = "HALF_SCALING".toList ∧
    "div".toList.map Char.toUpper = "DIV".toList :=
  ⟨rfl, ⟨by simp [OperandToken], by decide⟩, ⟨by simp [OperandToken], by decide⟩, by decide, by decide⟩

/-- Both sides of 2^256, the fewest hexadecimal digits of the greatest value, and a text that is no literal. -/
theorem witness_OperandTextsDenoteTheirValues :
    2 ^ 256 - 1 < 2 ^ 256 ∧ 0 < 64 ∧ 2 ^ 256 - 1 < 16 ^ 64 ∧ 2 ^ 256 ≤ 2 ^ 256 ∧ literalValue "x".toList = none := by
  decide

theorem witness_StepRunsDecodedInstruction :
    CompletesNext (commandOf 0x06 7 5) (pendingState 0x06 7 5) ∧
      (decode (commandOf 0x06 7 5)).toOption = some (.sub 7 5) :=
  ⟨pendingState_completes _ _ _, by decide⟩

theorem witness_FetchWordRunsItsInstruction :
    decodeTableWord 8 0x01 = some (.floorIntermediate 0) ∧ decodeTableWord 8 0x09 = some (.div 0 0) := by decide

/-- For the results of all nine operations, FloorIntermediateResult and HalfScalingResult among them: a pending command of each `OPC` (the hypothesis of `Selects`). -/
theorem witness_Selects : ∀ op ∈ [0x01#8, 0x02#8, 0x03#8, 0x04#8, 0x05#8, 0x06#8, 0x07#8, 0x08#8, 0x09#8],
    (commandOf op maxv 1).op = op ∧ CompletesNext (commandOf op maxv 1) (pendingState op maxv 1) :=
  fun _ _ => ⟨rfl, pendingState_completes _ _ _⟩

theorem witness_FloorResult : (7000000000000000000#256).toNat % 10 ^ 18 = 0 := by decide

theorem witness_DoubleScalingResultOrOverflow :
    thresholdT.toNat * 10 ^ 18 < 2 ^ 256 ∧ 2 ^ 256 ≤ (thresholdT + 1).toNat * 10 ^ 18 := by decide

theorem witness_AddResultOrOverflow :
    maxv.toNat + (0#256).toNat < 2 ^ 256 ∧ 2 ^ 256 ≤ maxv.toNat + (1#256).toNat := by decide

theorem witness_SubResultOrUnderflow : maxv.toNat ≤ maxv.toNat ∧ (0#256).toNat < (1#256).toNat := by decide

theorem witness_DiffAndSignResult :
    (7#256).toNat ≤ (7#256).toNat ∧ (0#256).toNat < maxv.toNat ∧ (0#256) ≠ maxv := by decide

/-- V48 and V49: the largest equal factors without overflow and the smallest with it. -/
theorem witness_MulResultOrOverflow :
    (340282366920938463463374607431768211455999999999#256).toNat / 10 ^ 9 *
      ((340282366920938463463374607431768211455999999999#256).toNat / 10 ^ 9) < 2 ^ 256 ∧
    2 ^ 256 ≤ (340282366920938463463374607431768211456000000000#256).toNat / 10 ^ 9 *
      ((340282366920938463463374607431768211456000000000#256).toNat / 10 ^ 9) := by decide

theorem witness_DivResultOrFault : (0#256).toNat = 0 ∧
    ((1#256).toNat ≠ 0 ∧ 2 ^ 256 ≤ (thresholdT + 1).toNat * 10 ^ 18) ∧
    ((1#256).toNat ≠ 0 ∧ thresholdT.toNat * 10 ^ 18 < 2 ^ 256) := by decide

theorem witness_MulRoundingBound : ∃ t, exec (.mul 1999999999 1999999999) State.reset = .next t ∧
    validField t.status = 1 := ⟨_, rfl, by decide⟩

/-- Every operation completes with `VALID = 1` somewhere. -/
theorem witness_RoundingIsFloor : ∀ i ∈ [Instr.floorIntermediate 7, .floor 7, .halfScaling 7, .mul 7 7, .div 7 3,
    .doubleScaling 7, .add 7 3, .sub 7 7, .diffAndSign 3 7],
    ∃ t, exec i State.reset = .next t ∧ validField t.status = 1 := by
  intro i h
  simp only [List.mem_cons, List.not_mem_nil, or_false] at h
  rcases h with rfl | rfl | rfl | rfl | rfl | rfl | rfl | rfl | rfl <;> exact ⟨_, rfl, by decide⟩

theorem witness_ZeroOperands : (1#256) ≠ 0 := by decide

theorem witness_LimbAdderCarry : (limbAdd maxv 1).2 = 1 ∧ (limbAdd maxv 0).2 = 0 := by decide

theorem witness_LimbSubtractorBorrow : (limbSub 0 1).2 = 1 ∧ (limbSub 1 1).2 = 0 := by decide

/-- DIV's hypothesis, and a result of each operation that never overflows. -/
theorem witness_OverflowComparatorInputs : (1#256) ≠ 0 ∧
    ∀ i ∈ [Instr.floorIntermediate maxv, .floor maxv, .halfScaling maxv, .sub maxv 0, .diffAndSign 0 maxv],
      ∃ t, exec i State.reset = .next t ∧ validField t.status = 1 := by
  refine ⟨by decide, ?_⟩
  intro i h
  simp only [List.mem_cons, List.not_mem_nil, or_false] at h
  rcases h with rfl | rfl | rfl | rfl | rfl <;> exact ⟨_, rfl, by decide⟩

/-- A completing command for each clause: each list of opcodes, and both ends of the illegal range. -/
theorem witness_CausesPerOpcode :
    ∀ op ∈ [0x01#8, 0x02#8, 0x03#8, 0x07#8, 0x04#8, 0x05#8, 0x08#8, 0x06#8, 0x09#8, 0x00#8, 0x0A#8, 0xFF#8],
      CompletesNext (commandOf op maxv maxv) (pendingState op maxv maxv) :=
  fun _ _ => pendingState_completes _ _ _

theorem witness_FaultMechanism : CompletesNext (commandOf 0x06 0 1) (pendingState 0x06 0 1) ∧
    evalCommand 0x06 (operandA (commandOf 0x06 0 1)) (operandB (commandOf 0x06 0 1)) = .raised .underflow :=
  ⟨pendingState_completes _ _ _, by decide⟩

/-- A DIFF_AND_SIGN, and another operation that completes and one that faults. -/
theorem witness_SignFlagRule : (∃ t, exec (.diffAndSign 3 5) State.reset = .next t) ∧
    (∃ t, exec (.add 1 1) State.reset = .next t ∧ validField t.status = 1) ∧
    (∃ t, exec (.sub 0 1) State.reset = .next t ∧ validField t.status = 0) ∧
    (∃ t, step (requestState 0x05 1 1) = .next t) :=
  ⟨⟨_, rfl⟩, ⟨_, rfl, by decide⟩, ⟨_, rfl, by decide⟩, ⟨_, rfl⟩⟩

/-- A completion that changes RES and an acceptance that changes STATUS and PEND. -/
theorem witness_RegistersChangeOnlyByTransitions :
    (∃ t, step (pendingState 0x05 1 1) = .next t ∧ edgeEvent (pendingState 0x05 1 1) ≠ some .reset ∧
      t.resLo ≠ (pendingState 0x05 1 1).resLo) ∧
    (∃ t, step (requestState 0x05 1 1) = .next t ∧ edgeEvent (requestState 0x05 1 1) ≠ some .reset ∧
      t.status ≠ (requestState 0x05 1 1).status) := by
  exact ⟨⟨_, rfl, by decide, by decide⟩, ⟨_, rfl, by decide, by decide⟩⟩

/-- For LegalStateKept, LegalRunsNeverStop and StatusPinShowsStatus. Legal states: idle, pending, done with a result, done with a fault. -/
theorem witness_Legal : Legal State.reset ∧ Legal (pendingState 0x05 1 1) ∧
    Legal (doneState 0x10) ∧ Legal (doneState 0x05) :=
  ⟨by decide, by decide, by decide, by decide⟩

theorem witness_LegalStateKept : Legal (pendingState 0x05 1 1) ∧ ∃ t, step (pendingState 0x05 1 1) = .next t :=
  ⟨by decide, _, rfl⟩

/-- For LegalStateAfterReset, ResetEdgeRestoresResetState and ResultReadOnlyWhileValid: a state whose next edge is a
reset edge. -/
theorem witness_reset : (pinsAt { pendingState 0x05 1 1 with inputs := [{ rst := 1, reqValid := 1, cmd := ⟨5, 1, 0, 1, 0⟩ }] }
    0).rst = 1 := by decide

/-- An acceptance; a request that the block is not ready for; an edge without a request. -/
theorem witness_AcceptanceRule : AcceptsNext (commandOf 0x05 1 1) (requestState 0x05 1 1) ∧
    (∃ q rest, ({ pendingState 0x05 1 1 with inputs := [PinSample.idle] } : State).inputs = q :: rest ∧ q.rst = 0 ∧
      reqReady q.rst { pendingState 0x05 1 1 with inputs := [PinSample.idle] } = 0) ∧ (pinsAt State.reset 0).rst = 0 ∧ (pinsAt State.reset 0).reqValid = 0 :=
  ⟨requestState_accepts _ _ _, ⟨_, _, rfl, rfl, by decide⟩, by decide, by decide⟩

/-- Past the one listed request the host is idle, so `rst` stays 0 for any number of edges, whatever `LATENCY` is. -/
theorem witness_CompletionAfterExactLatency (n : Nat) :
    AcceptsNext (commandOf 0x05 1 1) (requestState 0x05 1 1) ∧ NoResetFor n (requestState 0x05 1 1) := by
  refine ⟨requestState_accepts _ _ _, fun j _ => ?_⟩
  cases j <;> rfl

theorem witness_HandshakeOutputs : Legal (requestState 0x05 1 1) ∧
    AcceptsNext (commandOf 0x05 1 1) (requestState 0x05 1 1) ∧
    CompletesNext (commandOf 0x05 1 1) (pendingState 0x05 1 1) :=
  ⟨by decide, requestState_accepts _ _ _, pendingState_completes _ _ _⟩

/-- A pending command, a reset edge, then one edge without request. -/
theorem witness_ResetDiscardsPendingCommand :
    (pinsAt { pendingState 0x09 1 0 with inputs := [{ PinSample.idle with rst := 1 }, PinSample.idle] } 0).rst = 1 ∧
    ∀ j, j < 1 →
      (pinsAt { pendingState 0x09 1 0 with inputs := [{ PinSample.idle with rst := 1 }, PinSample.idle] } (j + 1)).rst = 0 ∧
      (pinsAt { pendingState 0x09 1 0 with inputs := [{ PinSample.idle with rst := 1 }, PinSample.idle] } (j + 1)).reqValid
        = 0 := by
  decide

/-- One idle edge and then a request. -/
theorem witness_IdleBlockHoldsRegisters :
    busyField State.reset.status = 0 ∧
    (∀ j, j < 1 → (pinsAt { requestState 0x05 1 1 with inputs := PinSample.idle :: (requestState 0x05 1 1).inputs } j).rst
      = 0 ∧ (pinsAt { requestState 0x05 1 1 with inputs := PinSample.idle :: (requestState 0x05 1 1).inputs } j).reqValid
      = 0) ∧
    (pinsAt { requestState 0x05 1 1 with inputs := PinSample.idle :: (requestState 0x05 1 1).inputs } 1).rst = 0 ∧
    (pinsAt { requestState 0x05 1 1 with inputs := PinSample.idle :: (requestState 0x05 1 1).inputs } 1).reqValid = 1 := by
  decide

/-- Before reset: a request, no request; and pins that begin with a reset. -/
theorem witness_BootFromPowerOn :
    (pinsAt { requestState 0x05 1 1 with resetSeen := false } 0).reqValid = 1 ∧
    (pinsAt { State.reset with resetSeen := false } 0).reqValid = 0 ∧ ({ PinSample.idle with rst := 1 } : PinSample).rst = 1 := by
  decide

theorem witness_ResultReadOnlyWhileValid : validField 0x10#8 = 1 ∧ validField 0x02#8 = 0 ∧
    AcceptsNext (commandOf 0x05 1 1) (requestState 0x05 1 1) ∧
    CompletesNext (commandOf 0x05 1 1) (pendingState 0x05 1 1) ∧
    CompletesNext (commandOf 0x06 0 1) (pendingState 0x06 0 1) :=
  ⟨by decide, by decide, requestState_accepts _ _ _, pendingState_completes _ _ _, pendingState_completes _ _ _⟩

/-- The same command completing in two different states. -/
theorem witness_OutcomeDependsOnCommandAlone :
    CompletesNext (commandOf 0x05 1 1) (pendingState 0x05 1 1) ∧
    CompletesNext (commandOf 0x05 1 1) { pendingState 0x05 1 1 with resLo := 9, sign := 1 } :=
  ⟨pendingState_completes _ _ _, pendingState_completes _ _ _⟩

theorem witness_ClockedMachineRefinesAbstract : (pendingState 0x05 1 1).resetSeen = true := by decide

/-- Each of the three abstract steps is enabled in some legal state. -/
theorem witness_AbstractStepsAreRealised : Legal State.reset ∧ Legal (pendingState 0x05 1 1) ∧
    (absStep .reset (abstraction State.reset)).isSome = true ∧
    (absStep (.accept 0x05 1 1) (abstraction State.reset)).isSome = true ∧
    (absStep .complete (abstraction (pendingState 0x05 1 1))).isSome = true :=
  ⟨by decide, by decide, by decide, by decide, by decide⟩

end Sys2Proof.Tests
end

section
/-! A completion edge (R20) as a function of the command's outcome (R10). The old state reaches the outcome registers
only through a fault, which leaves them as they are. -/

namespace Sys2Proof.Machine

/-- The completion edge of a pending command writes the value of `Exec` (R10, R20). -/
theorem step_completesNext {c : Command} {s : State} (h : CompletesNext c s) :
    step s = .next (complete (evalCommand c.op (operandA c) (operandB c)) (clockTick s)) := by
  obtain ⟨hseen, hrst, hbusy, hpend, hedges⟩ := h
  rw [step_run s c hrst hseen hbusy hpend hedges, runCommand_eq]

theorem complete_status_congr (o : CmdOutcome) (s u : State) : (complete o s).status = (complete o u).status := by
  cases o with
  | result r sg => rfl
  | raised k => rfl

/-- `VALID = 1` excludes a fault, and the registers of a result are the result alone. -/
theorem complete_result_congr (o : CmdOutcome) (s u : State) (h : validField (complete o s).status = 1) :
    (complete o s).resLo = (complete o u).resLo ∧ (complete o s).resHi = (complete o u).resHi ∧
      (complete o s).sign = (complete o u).sign := by
  cases o with
  | result r sg => exact ⟨rfl, rfl, rfl⟩
  | raised k => simp [complete] at h

/-- `VALID = 0` excludes a result, and a fault keeps the result registers (R62). -/
theorem complete_keeps_of_invalid (o : CmdOutcome) (s : State) (h : validField (complete o s).status = 0) :
    (complete o s).resLo = s.resLo ∧ (complete o s).resHi = s.resHi ∧ (complete o s).sign = s.sign := by
  cases o with
  | result r sg => simp [complete] at h
  | raised k => exact ⟨rfl, rfl, rfl⟩

/-- Settles O43: both edges complete the one value `Exec` has on the common `OPC`, `A` and `B`, each on its own state. -/
theorem outcomeDependsOnCommandAlone : Obligations.OutcomeDependsOnCommandAlone := by
  intro c d s u hs hu hop hA hB
  have hstepS := step_completesNext hs
  have hstepU := step_completesNext hu
  rw [← hop, ← hA, ← hB] at hstepU
  generalize evalCommand c.op (operandA c) (operandB c) = o at hstepS hstepU
  have hstatus := complete_status_congr o (clockTick s) (clockTick u)
  refine ⟨_, _, hstepS, hstepU, hstatus, complete_result_congr o _ _, fun hinvalid => ?_⟩
  obtain ⟨hsLo, hsHi, hsSign⟩ := complete_keeps_of_invalid o (clockTick s) hinvalid
  obtain ⟨huLo, huHi, huSign⟩ := complete_keeps_of_invalid o (clockTick u) (hstatus ▸ hinvalid)
  exact ⟨hsLo, hsHi, hsSign, huLo, huHi, huSign⟩

end Sys2Proof.Machine
end

section
/-! What `Exec` can give (R10): a result with sign 0 or a fault with a cause in use, except that DIFF_AND_SIGN gives a
result with a sign of its own. The reserved cause `OutOfBounds` is never raised (R61). -/

namespace Sys2Proof.Machine

/-- A result with sign 0 (R18), or a fault with a cause other than the reserved one (R61). -/
inductive PlainOutcome : CmdOutcome → Prop
  | result (r : Word) : PlainOutcome (.result r 0)
  | raised (c : Cause) (h : c ≠ .outOfBounds) : PlainOutcome (.raised c)

theorem check256_plain (x : Nat) (f : Word → Word) : PlainOutcome (check256 x fun v => .result (f v) 0) := by
  rcases Nat.lt_or_ge x (2 ^ 256) with h | h
  · rw [check256_inRange x _ h]; exact .result _
  · rw [check256_outOfRange x _ h]; exact .raised _ (by decide)

theorem evalSub_plain (a b : Word) : PlainOutcome (evalSub a b) := by
  unfold evalSub
  split
  · exact .raised _ (by decide)
  · exact .result _

theorem evalDiv_plain (a b : Word) : PlainOutcome (evalDiv a b) := by
  unfold evalDiv
  split
  · exact .raised _ (by decide)
  · exact check256_plain _ _

/-- Every `OPC` but DIFF_AND_SIGN's has a plain outcome, the illegal ones included. -/
theorem evalCommand_plain (op : Opcode) (a b : Word) (hop : op ≠ 0x07#8) : PlainOutcome (evalCommand op a b) := by
  unfold evalCommand
  split_ifs
  · exact .result _
  · exact .result _
  · exact .result _
  · exact check256_plain _ id
  · exact check256_plain _ id
  · exact evalSub_plain a b
  · exact check256_plain _ id
  · exact evalDiv_plain a b
  · exact .raised _ (by decide)

/-- The comparator of R52 decides `A < B`: the high limbs first, and the low limbs where those are equal. -/
theorem limbLess_iff_toNat_lt (a b : Word) : limbLess a b = true ↔ a.toNat < b.toNat := by
  simp only [limbLess, Bool.or_eq_true, Bool.and_eq_true, decide_eq_true_eq, BitVec.lt_def, ← BitVec.toNat_inj,
    lowLimb_toNat, highLimb_toNat]
  omega

/-- DIFF_AND_SIGN never faults, and its sign is that of `A - B` (R18, R55). -/
theorem evalDiffAndSign_eq_result (a b : Word) :
    ∃ r, evalDiffAndSign a b = .result r (if b.toNat ≤ a.toNat then 0 else 1) := by
  unfold evalDiffAndSign
  by_cases h : a.toNat < b.toNat
  · rw [if_pos ((limbLess_iff_toNat_lt a b).2 h), if_neg (by omega)]; exact ⟨_, rfl⟩
  · rw [if_neg (mt (limbLess_iff_toNat_lt a b).1 h), if_pos (by omega)]; exact ⟨_, rfl⟩

/-- The reserved cause is never raised (R61). -/
theorem evalCommand_ne_outOfBounds (op : Opcode) (a b : Word) : evalCommand op a b ≠ .raised .outOfBounds := by
  intro hraised
  by_cases hop : op = 0x07#8
  · subst hop
    obtain ⟨r, hr⟩ := evalDiffAndSign_eq_result a b
    cases hr.symm.trans hraised
  · have hplain := evalCommand_plain op a b hop
    rw [hraised] at hplain
    cases hplain with
    | raised _ h => exact h rfl

/-- An operation is `Exec` of its encoding's `OPC` and operands (R10, R38). -/
theorem exec_eq_complete (i : Instr) (s : State) :
    exec i s = .next (complete (evalCommand (opcodeOf i) (operandsOf i).1 (operandsOf i).2) s) := by
  cases i <;> simp [opcodeOf, operandsOf, evalCommand]

theorem opcodeOf_ne_diffAndSign (i : Instr) (h : ∀ a b, i ≠ .diffAndSign a b) : opcodeOf i ≠ 0x07#8 := by
  cases i with
  | diffAndSign a b => exact absurd rfl (h a b)
  | _ => simp [opcodeOf]

end Sys2Proof.Machine
end

section
/-! A completion (R20, R62), field by field: what a result and a fault have in common. -/

namespace Sys2Proof.Machine

@[simp] theorem complete_pend (o : CmdOutcome) (s : State) : (complete o s).pend = none := by cases o <;> rfl
@[simp] theorem complete_rspDone (o : CmdOutcome) (s : State) : (complete o s).rspDone = 1 := by cases o <;> rfl
@[simp] theorem complete_resetSeen (o : CmdOutcome) (s : State) : (complete o s).resetSeen = s.resetSeen := by
  cases o <;> rfl
@[simp] theorem complete_busy (o : CmdOutcome) (s : State) : busyField (complete o s).status = 0 := by
  cases o <;> exact packStatus_busy _ _ _
@[simp] theorem complete_reserved (o : CmdOutcome) (s : State) : reservedField (complete o s).status = 0 := by
  cases o <;> exact packStatus_reserved _ _ _

end Sys2Proof.Machine
end

section
/-! The handshake (R19, R21): when `req_ready` is 1, what the acceptance of a command does, and that a busy block does
not see the request pins. -/

namespace Sys2Proof.Machine

theorem reqReady_eq_one_iff (rst : Bit) (s : State) : reqReady rst s = 1 ↔ rst = 0 ∧ busyField s.status = 0 := by
  simp [reqReady]

theorem reqReady_of_busy (rst : Bit) (s : State) (h : busyField s.status = 1) : reqReady rst s = 0 := by
  simp [reqReady, h]

/-- `LATENCY` is at least 1 (R5). -/
theorem one_le_drawnLatency (s : State) (c : Command) : 1 ≤ drawnLatency s c := Nat.le_add_left 1 _

theorem AcceptsNext.busy_eq_zero {c : Command} {s : State} (h : AcceptsNext c s) : busyField s.status = 0 := by
  obtain ⟨-, -, -, -, hready⟩ := h
  exact ((reqReady_eq_one_iff _ s).1 hready).2

/-- The acceptance edge of a command (R19). -/
theorem step_acceptsNext {c : Command} {s : State} (h : AcceptsNext c s) :
    step s = .next (accept c (clockTick s)) := by
  have hbusy := h.busy_eq_zero
  obtain ⟨hseen, hrst, hvalid, rfl, -⟩ := h
  exact step_accept s hrst hseen hbusy hvalid

/-- While `BUSY = 1`, an edge reads `rst` alone of the pins (R19, R83). -/
theorem step_busy (s : State) (hrst : (pinsAt s 0).rst = 0) (hseen : s.resetSeen = true)
    (hbusy : busyField s.status = 1) : step s = pendingEdge (clockTick s) := by
  simp [step, clockEdge, hrst, hseen, hbusy]

end Sys2Proof.Machine
end

section
/-! The edges after the first reset edge, said once with the abstract step each of them is (R23). -/

namespace Sys2Proof.Machine

/-- `EdgeOf s e t`: the next edge from `s` is the abstract step `e`, or none, and ends in `t`. -/
inductive EdgeOf (s : State) : Option AbsEvent → State → Prop
  /-- R77, R80 -/
  | reset (hrst : (pinsAt s 0).rst = 1) : EdgeOf s (some .reset) (resetEdge (clockTick s))
  /-- R19 -/
  | accept (hbusy : busyField s.status = 0) (hvalid : (pinsAt s 0).reqValid = 1) :
      EdgeOf s (some (.accept (pinsAt s 0).cmd.op (operandA (pinsAt s 0).cmd) (operandB (pinsAt s 0).cmd)))
        (accept (pinsAt s 0).cmd (clockTick s))
  /-- an idle block without a request (R76), or `BUSY = 1` with an empty `PEND` -/
  | hold : EdgeOf s none (clockTick s)
  /-- an edge before the completion edge (R20) -/
  | count (hedges : 1 < s.edgesLeft) : EdgeOf s none (countEdge (clockTick s))
  /-- R20 -/
  | complete (c : Command) (hnext : CompletesNext c s) :
      EdgeOf s (some .complete) (complete (evalCommand c.op (operandA c) (operandB c)) (clockTick s))

theorem edgeEvent_accept (s : State) (hrst : (pinsAt s 0).rst = 0) (hbusy : busyField s.status = 0)
    (hvalid : (pinsAt s 0).reqValid = 1) :
    edgeEvent s = some (.accept (pinsAt s 0).cmd.op (operandA (pinsAt s 0).cmd) (operandB (pinsAt s 0).cmd)) := by
  simp [edgeEvent, hrst, hbusy, hvalid]

theorem edgeEvent_count (s : State) (hrst : (pinsAt s 0).rst = 0) (hbusy : busyField s.status = 1)
    (hedges : 1 < s.edgesLeft) : edgeEvent s = none := by
  simp [edgeEvent, hrst, hbusy, Nat.not_le.mpr hedges]

theorem edgeEvent_complete {c : Command} {s : State} (h : CompletesNext c s) : edgeEvent s = some .complete := by
  obtain ⟨-, hrst, hbusy, hpend, hedges⟩ := h
  simp [edgeEvent, hrst, hbusy, hpend, hedges]

/-- Every step after the first reset edge is one of these edges. -/
theorem edgeOf_step {s t : State} (hseen : s.resetSeen = true) (hstep : step s = .next t) :
    EdgeOf s (edgeEvent s) t := by
  rcases step_cases s t hstep with ⟨hrst, rfl⟩ | ⟨-, hunseen, -⟩ | ⟨hrst, -, hbusy, hvalid, rfl⟩ |
    ⟨hrst, -, hbusy, hvalid, rfl⟩ | ⟨hrst, -, hbusy, hpend, rfl⟩ | ⟨c, hrst, -, hbusy, -, hedges, rfl⟩ |
    ⟨c, hrst, -, hbusy, hpend, hedges, rfl⟩
  · have hevent : edgeEvent s = some .reset := by simp [edgeEvent, hrst]
    rw [hevent]; exact .reset hrst
  · simp [hseen] at hunseen
  · rw [edgeEvent_accept s hrst hbusy hvalid]; exact .accept hbusy hvalid
  · have hevent : edgeEvent s = none := by simp [edgeEvent, hrst, hbusy, hvalid]
    rw [hevent]; exact .hold
  · have hevent : edgeEvent s = none := by simp [edgeEvent, hrst, hbusy, hpend]
    rw [hevent]; exact .hold
  · rw [edgeEvent_count s hrst hbusy hedges]; exact .count hedges
  · have hnext : CompletesNext c s := ⟨hseen, hrst, hbusy, hpend, hedges⟩
    rw [edgeEvent_complete hnext]; exact .complete c hnext

end Sys2Proof.Machine
end

section
/-! The legal states (R16, R20 to R22): each operation an edge is made of ends in one. -/

namespace Sys2Proof.Machine

theorem legal_resetEdge (s : State) : Legal (resetEdge s) := by simp [Legal, LegalStatus]

theorem legal_clockTick {s : State} (h : Legal s) : Legal (clockTick s) := by
  obtain ⟨hseen, hstatus, hpend, hedges, -⟩ := h
  exact ⟨hseen, hstatus, hpend, hedges, by simp⟩

/-- Counting keeps an edge to come, and changes nothing else that legality speaks of. -/
theorem legal_countEdge {s : State} (h : Legal s) (hlt : 1 < s.edgesLeft) : Legal (countEdge s) := by
  obtain ⟨hseen, hstatus, hpend, -, hdone⟩ := h
  exact ⟨hseen, hstatus, hpend, fun _ => Nat.le_sub_one_of_lt hlt, hdone⟩

theorem legal_accept (c : Command) {s : State} (hseen : s.resetSeen = true) (hdone : s.rspDone = 0) :
    Legal (accept c s) := by
  simp [Legal, LegalStatus, hseen, hdone, one_le_drawnLatency]

/-- The four causes in use are the fault combinations of R16. -/
theorem legalStatus_fault (c : Cause) (h : c ≠ .outOfBounds) :
    LegalStatus (packStatus 0 0 (causeCode c)) ∧ causeCode c ≠ 0 := by
  cases c with
  | outOfBounds => exact absurd rfl h
  | _ => decide

theorem legal_complete {o : CmdOutcome} {s : State} (hseen : s.resetSeen = true) (ho : o ≠ .raised .outOfBounds) :
    Legal (complete o s) := by
  cases o with
  | result r sg => simp [Legal, LegalStatus, complete, hseen]
  | raised c =>
    obtain ⟨hstatus, hcode⟩ := legalStatus_fault c fun hc => ho (hc ▸ rfl)
    refine ⟨hseen, hstatus, by simp [complete], by simp [complete], fun _ => ⟨packStatus_busy _ _ _, .inr ?_⟩⟩
    simpa [complete] using hcode

/-- Settles O31: the kinds of edge, each with the rule of the operation it is made of. -/
theorem legalStateKept : Obligations.LegalStateKept := by
  intro s t hlegal hstep
  have htick := legal_clockTick hlegal
  obtain ⟨hseen, -⟩ := hlegal
  have hedge := edgeOf_step hseen hstep
  generalize edgeEvent s = e at hedge
  cases hedge with
  | reset => exact legal_resetEdge _
  | accept => exact legal_accept _ hseen rfl
  | hold => exact htick
  | count hedges => exact legal_countEdge htick hedges
  | complete c => exact legal_complete hseen (evalCommand_ne_outOfBounds _ _ _)

/-- Settles O32: a reset edge ends in a legal state, and the reset state is the state of one. -/
theorem legalStateAfterReset : Obligations.LegalStateAfterReset :=
  ⟨by decide, fun s hrst => ⟨_, step_reset s hrst, legal_resetEdge _⟩⟩

/-- Settles O34: the pin packs the register's fields again, which is the register where the reserved bits are 0. -/
theorem statusPinShowsStatus : Obligations.StatusPinShowsStatus := by
  intro rst s
  refine ⟨packStatus_cause _ _ _, packStatus_valid _ _ _, packStatus_busy _ _ _, packStatus_reserved _ _ _, ?_⟩
  rintro ⟨-, ⟨hreserved, -⟩, -⟩
  exact packStatus_fields s.status hreserved

end Sys2Proof.Machine
end

section
/-! The simulation of R23: an edge with an abstract step takes the abstract state along it, and any other edge leaves
the abstract state as it is. -/

namespace Sys2Proof.Machine

theorem abstraction_eq_of_edgeOf_none {s t : State} (h : EdgeOf s none t) : abstraction t = abstraction s := by
  cases h with
  | hold => rfl
  | count => rfl

theorem abstraction_resetEdge (s : State) : abstraction (resetEdge s) = AbsState.initial := by
  simp [abstraction, resWord, AbsState.initial, assemble]

/-- A completion is R23's `Complete` on the abstract state. -/
theorem absStep_complete {c : Command} {s : State} (hbusy : busyField s.status = 1) (hpend : s.pend = some c) :
    absStep .complete (abstraction s) =
      some (abstraction (complete (evalCommand c.op (operandA c) (operandB c)) (clockTick s))) := by
  cases ho : evalCommand c.op (operandA c) (operandB c) <;>
    simp [absStep, abstraction, complete, resWord, assemble_limbs, hbusy, hpend, ho]

theorem absStep_of_edgeOf_some {s t : State} {e : AbsEvent} (h : EdgeOf s (some e) t) :
    absStep e (abstraction s) = some (abstraction t) := by
  cases h with
  | reset => rw [abstraction_resetEdge]; rfl
  | accept hbusy => simp [absStep, abstraction, resWord, hbusy]
  | complete c hnext =>
    obtain ⟨-, -, hbusy, hpend, -⟩ := hnext
    exact absStep_complete hbusy hpend

theorem resetSeen_of_edgeOf {s t : State} {e : Option AbsEvent} (hseen : s.resetSeen = true) (h : EdgeOf s e t) :
    t.resetSeen = true := by
  cases h with
  | reset => rfl
  | accept => exact hseen
  | hold => exact hseen
  | count => exact hseen
  | complete c => rw [complete_resetSeen]; exact hseen

/-- Settles O44: the two simulation lemmas, by whether the edge is an abstract step. -/
theorem clockedMachineRefinesAbstract : Obligations.ClockedMachineRefinesAbstract := by
  refine ⟨abstraction_resetEdge State.reset, fun s hseen => ?_⟩
  obtain ⟨t, hstep⟩ := step_next s hseen
  have hedge := edgeOf_step hseen hstep
  refine ⟨t, hstep, resetSeen_of_edgeOf hseen hedge, ?_⟩
  cases hevent : edgeEvent s with
  | none => exact abstraction_eq_of_edgeOf_none (hevent ▸ hedge)
  | some e => exact absStep_of_edgeOf_some (hevent ▸ hedge)

end Sys2Proof.Machine
end

section
/-! The registers (R15, R18, R19, R21), by the kinds of edge. -/

namespace Sys2Proof.Machine

/-- An operation with a plain outcome writes `SIGN` with 0 or, where it faults, leaves it (R18). -/
theorem complete_sign_of_plain {o : CmdOutcome} (s : State) (h : PlainOutcome o) :
    (validField (complete o s).status = 1 → (complete o s).sign = 0) ∧
      (validField (complete o s).status = 0 → (complete o s).sign = s.sign) := by
  cases h with
  | result r => simp [complete]
  | raised c => simp [complete]

theorem complete_sign_frame (o : CmdOutcome) (s : State) (x : Bit) :
    { complete o { s with sign := x } with sign := (complete o s).sign } = complete o s := by
  cases o <;> rfl

/-- Nothing inside the block reads `SIGN` (R18): each edge is decided by other fields, and its operation carries the
difference in `SIGN` along or writes over it. -/
theorem step_sign_frame {s t : State} (x : Bit) (hstep : step s = .next t) :
    ∃ u, step { s with sign := x } = .next u ∧ { u with sign := t.sign } = t := by
  rcases step_cases s t hstep with ⟨hrst, rfl⟩ | ⟨hrst, hunseen, hvalid, rfl⟩ | ⟨hrst, hseen, hbusy, hvalid, rfl⟩ |
    ⟨hrst, hseen, hbusy, hvalid, rfl⟩ | ⟨hrst, hseen, hbusy, hpend, rfl⟩ |
    ⟨c, hrst, hseen, hbusy, hpend, hedges, rfl⟩ | ⟨c, hrst, hseen, hbusy, hpend, hedges, rfl⟩
  · exact ⟨_, step_reset _ hrst, rfl⟩
  · have hedge : beforeResetEdge (pinsAt s 0) (clockTick { s with sign := x }) =
        .next (unspecifiedEdge (clockTick { s with sign := x })) := by simp [beforeResetEdge, hvalid]
    exact ⟨_, (step_beforeReset { s with sign := x } hrst hunseen).trans hedge, rfl⟩
  · exact ⟨_, step_accept _ hrst hseen hbusy hvalid, rfl⟩
  · exact ⟨_, step_idle _ hrst hseen hbusy hvalid, rfl⟩
  · exact ⟨_, step_busyEmpty _ hrst hseen hbusy hpend, rfl⟩
  · exact ⟨_, step_count _ c hrst hseen hbusy hpend hedges, rfl⟩
  · exact ⟨_, (step_run { s with sign := x } c hrst hseen hbusy hpend hedges).trans (runCommand_eq c _),
      complete_sign_frame _ (clockTick s) x⟩

/-- Settles O29: the sign of DIFF_AND_SIGN, the plain outcomes of the other operations, and the frame of `SIGN`. -/
theorem signFlagRule : Obligations.SignFlagRule := by
  refine ⟨fun a b s t hexec => ?_, fun i s t hexec hne => ?_, fun s t x => step_sign_frame x, rfl⟩
  · obtain ⟨r, hr⟩ := evalDiffAndSign_eq_result a b
    rw [exec_diffAndSign, hr] at hexec
    cases hexec
    rfl
  · rw [exec_eq_complete] at hexec
    cases hexec
    exact complete_sign_of_plain s (evalCommand_plain _ _ _ (opcodeOf_ne_diffAndSign i hne))

/-- Only a completion without fault changes the result registers or `SIGN` (R15, R62). -/
theorem complete_valid_of_changed {o : CmdOutcome} {s : State}
    (h : (complete o s).resLo ≠ s.resLo ∨ (complete o s).resHi ≠ s.resHi ∨ (complete o s).sign ≠ s.sign) :
    validField (complete o s).status = 1 := by
  refine (bit_cases _).resolve_left fun hinvalid => ?_
  obtain ⟨hlo, hhi, hsign⟩ := complete_keeps_of_invalid o s hinvalid
  simp [hlo, hhi, hsign] at h

/-- Settles O30: of the edges that are no reset, only a completion writes the result registers, and only it and an
acceptance write `STATUS` or `PEND`. -/
theorem registersChangeOnlyByTransitions : Obligations.RegistersChangeOnlyByTransitions := by
  refine ⟨fun s t hseen hstep hreset => ?_, rfl, rfl, rfl, rfl, rfl⟩
  have hedge := edgeOf_step hseen hstep
  generalize edgeEvent s = e at hedge hreset ⊢
  cases hedge with
  | reset => exact absurd rfl hreset
  | accept => exact ⟨by simp, fun _ => .inr ⟨_, _, _, rfl⟩⟩
  | hold => simp
  | count => simp
  | complete c => exact ⟨fun hchanged => ⟨rfl, complete_valid_of_changed hchanged⟩, fun _ => .inl rfl⟩

/-- A request the block is not ready for changes nothing (R19): a reset edge and the edge of a busy block read `rst`
alone of the pins. -/
theorem step_congr_of_not_ready {s : State} {p q : PinSample} {rest : List PinSample} (hseen : s.resetSeen = true)
    (hinputs : s.inputs = p :: rest) (hrst : p.rst = q.rst) (hready : reqReady p.rst s = 0) :
    step { s with inputs := q :: rest } = step s := by
  have hp : pinsAt s 0 = p := by simp [pinsAt, hinputs]
  have htick : clockTick { s with inputs := q :: rest } = clockTick s := by simp [clockTick, hinputs]
  rcases bit_cases p.rst with hzero | hone
  · have hbusy : busyField s.status = 1 := (bit_cases _).resolve_left fun hidle => by
      rw [(reqReady_eq_one_iff _ s).2 ⟨hzero, hidle⟩] at hready
      exact absurd hready (by decide)
    rw [step_busy { s with inputs := q :: rest } (hrst.symm.trans hzero) hseen hbusy,
      step_busy s (hp ▸ hzero) hseen hbusy, htick]
  · rw [step_reset { s with inputs := q :: rest } (hrst.symm.trans hone), step_reset s (hp ▸ hone), htick]

/-- Settles O35: the acceptance edge; the request pins have no part in the edge of a block that is not ready; and no
edge without `req_valid` is an acceptance. -/
theorem acceptanceRule : Obligations.AcceptanceRule := by
  refine ⟨fun c s h => ⟨_, step_acceptsNext h, by simp⟩, fun s p q rest => step_congr_of_not_ready,
    fun s hseen hrst hvalid => ?_⟩
  obtain ⟨t, hstep⟩ := step_next s hseen
  refine ⟨t, hstep, ?_⟩
  have hedge := edgeOf_step hseen hstep
  generalize edgeEvent s = e at hedge ⊢
  cases hedge with
  | reset hone => simp [hrst] at hone
  | accept _ hone => simp [hvalid] at hone
  | hold => simp
  | count => simp
  | complete c => simp

/-- The pulse of `rsp_done` is the cycle after a completion edge (R21). -/
theorem rspDone_eq_one_iff_of_edgeOf {s t : State} {e : Option AbsEvent} (h : EdgeOf s e t) :
    t.rspDone = 1 ↔ e = some .complete := by
  cases h with
  | reset => simp
  | accept => simp
  | hold => simp
  | count => simp
  | complete c => simp

/-- In a legal state where a command is accepted, none is pending (R21, R22). -/
theorem pend_eq_none_of_acceptsNext {c : Command} {s : State} (hlegal : Legal s) (h : AcceptsNext c s) :
    s.pend = none := by
  obtain ⟨-, -, hpend, -⟩ := hlegal
  simpa [h.busy_eq_zero] using hpend

/-- Settles O37: `req_ready` as `BUSY` has it, `rsp_done` by the kinds of edge. -/
theorem handshakeOutputs : Obligations.HandshakeOutputs := by
  refine ⟨reqReady_eq_one_iff, fun _ _ => rfl, fun s t hseen hstep _ =>
    rspDone_eq_one_iff_of_edgeOf (edgeOf_step hseen hstep), fun c s => pend_eq_none_of_acceptsNext,
    fun c s t hnext hstep => ⟨fun rst => ?_, ?_⟩, fun _ => rfl⟩
  · obtain ⟨-, -, hbusy, -⟩ := hnext
    exact reqReady_of_busy rst s hbusy
  · rw [step_completesNext hnext] at hstep
    cases hstep
    exact (reqReady_eq_one_iff _ _).2 ⟨rfl, complete_busy _ _⟩

/-- Settles O9: the completion edge runs what the decoder gives. -/
theorem stepRunsDecodedInstruction : Obligations.StepRunsDecodedInstruction := by
  rintro s c i ⟨hseen, hrst, hbusy, hpend, hedges⟩ hdecode
  rw [step_run s c hrst hseen hbusy hpend hedges, runCommand, hdecode]
  rfl

theorem decode_of_decodeTableWord {nbits w : Nat} {i : Instr} (h : decodeTableWord nbits w = some i) :
    decode (commandOfBits nbits w) = .ok i := by
  unfold decodeTableWord at h
  cases hdecode : decode (commandOfBits nbits w) with
  | error e => simp [hdecode, Except.toOption] at h
  | ok j => simpa [hdecode, Except.toOption] using h

theorem placeCommand_completesNext (c : Command) (s : State) : CompletesNext c (placeCommand c s) :=
  ⟨rfl, rfl, packStatus_busy 1 0 0, rfl, Nat.le_refl 1⟩

/-- Settles O10: a placed command completes at the next edge, which runs what it decodes to. -/
theorem fetchWordRunsItsInstruction : Obligations.FetchWordRunsItsInstruction := by
  intro s w i hword
  have hstatus : packStatus 1 0 0 = 0x20#8 := by decide
  rw [← hstatus]
  exact stepRunsDecodedInstruction _ _ i (placeCommand_completesNext _ s) (decode_of_decodeTableWord hword)

end Sys2Proof.Machine
end

section
/-! The edges between acceptance and completion (R20): a run of them in closed form. -/

namespace Sys2Proof.Machine

/-- The state `j` edges later, the pending command still waiting: the pins of these edges are past, the counter is lower
by `j`, and after the first of them no `rsp_done` pulse is left. -/
def waitEdges (j : Nat) (s : State) : State :=
  { s with
    edgesLeft := s.edgesLeft - j
    inputs := s.inputs.drop j
    rspDone := if j = 0 then s.rspDone else 0 }

@[simp] theorem waitEdges_zero (s : State) : waitEdges 0 s = s := rfl

/-- One more waiting edge is the counting edge of the sequencer. -/
theorem waitEdges_succ (j : Nat) (s : State) : waitEdges (j + 1) s = countEdge (clockTick (waitEdges j s)) := by
  simp [waitEdges, countEdge, clockTick, Nat.sub_sub]

@[simp] theorem waitEdges_resLo (j : Nat) (s : State) : (waitEdges j s).resLo = s.resLo := rfl
@[simp] theorem waitEdges_resHi (j : Nat) (s : State) : (waitEdges j s).resHi = s.resHi := rfl
@[simp] theorem waitEdges_sign (j : Nat) (s : State) : (waitEdges j s).sign = s.sign := rfl
@[simp] theorem waitEdges_status (j : Nat) (s : State) : (waitEdges j s).status = s.status := rfl
@[simp] theorem waitEdges_pend (j : Nat) (s : State) : (waitEdges j s).pend = s.pend := rfl
@[simp] theorem waitEdges_resetSeen (j : Nat) (s : State) : (waitEdges j s).resetSeen = s.resetSeen := rfl
@[simp] theorem waitEdges_edgesLeft (j : Nat) (s : State) : (waitEdges j s).edgesLeft = s.edgesLeft - j := rfl

theorem waitEdges_rspDone (j : Nat) {s : State} (h : s.rspDone = 0) : (waitEdges j s).rspDone = 0 := by
  simp [waitEdges, h]

theorem abstraction_waitEdges (j : Nat) (s : State) : abstraction (waitEdges j s) = abstraction s := rfl

theorem pinsAt_waitEdges (j n : Nat) (s : State) : pinsAt (waitEdges j s) n = pinsAt s (j + n) := by
  simp [pinsAt, waitEdges]

/-- As long as an edge is left after them and `rst` stays 0, the next `j` edges only wait (R20). -/
theorem runsTo_waitEdges {c : Command} {s : State} (j : Nat) (hseen : s.resetSeen = true)
    (hbusy : busyField s.status = 1) (hpend : s.pend = some c) (hedges : j < s.edgesLeft) (hrst : NoResetFor j s) :
    RunsTo j s (waitEdges j s) := by
  induction j with
  | zero => exact (runsTo_zero s s).2 rfl
  | succ j ih =>
    have hwait := ih (Nat.lt_of_succ_lt hedges) fun k hk => hrst k (Nat.lt_succ_of_lt hk)
    have hrstj : (pinsAt (waitEdges j s) 0).rst = 0 := by
      rw [pinsAt_waitEdges]; exact hrst j (Nat.lt_succ_self j)
    have hedgesj : 1 < (waitEdges j s).edgesLeft := by simp only [waitEdges_edgesLeft]; omega
    rw [waitEdges_succ]
    exact runsTo_add j 1 _ _ _ hwait (runsTo_one _ _ (step_count _ c hrstj hseen hbusy hpend hedgesj))

/-- After all but one of the edges left, the pending command completes at the next one (R20). -/
theorem waitEdges_completesNext {c : Command} {s : State} (hseen : s.resetSeen = true)
    (hbusy : busyField s.status = 1) (hpend : s.pend = some c) (hrst : (pinsAt s (s.edgesLeft - 1)).rst = 0) :
    CompletesNext c (waitEdges (s.edgesLeft - 1) s) := by
  refine ⟨hseen, ?_, hbusy, hpend, ?_⟩
  · rw [pinsAt_waitEdges]; exact hrst
  · simp only [waitEdges_edgesLeft]; omega

/-- The whole of a pending command's run: it waits, and completes at the last of the edges left (R20). -/
theorem runsTo_complete {c : Command} {s : State} (hseen : s.resetSeen = true) (hbusy : busyField s.status = 1)
    (hpend : s.pend = some c) (hedges : 1 ≤ s.edgesLeft) (hrst : NoResetFor s.edgesLeft s) :
    RunsTo s.edgesLeft s (complete (evalCommand c.op (operandA c) (operandB c))
      (clockTick (waitEdges (s.edgesLeft - 1) s))) := by
  have hlt : s.edgesLeft - 1 < s.edgesLeft := Nat.sub_one_lt_of_le hedges le_rfl
  have hwait := runsTo_waitEdges _ hseen hbusy hpend hlt fun k hk => hrst k (hk.trans hlt)
  have hlast := step_completesNext (waitEdges_completesNext hseen hbusy hpend (hrst _ hlt))
  have hrun := runsTo_add _ 1 _ _ _ hwait (runsTo_one _ _ hlast)
  rwa [Nat.sub_add_cancel hedges] at hrun

/-- Settles O36: the acceptance edge, then the run of the pending command with the latency drawn there. -/
theorem completionAfterExactLatency : Obligations.CompletionAfterExactLatency := by
  intro c s haccepts hnoReset
  have hstep := step_acceptsNext haccepts
  obtain ⟨hseen, -⟩ := haccepts
  have hbusy : busyField (accept c (clockTick s)).status = 1 := packStatus_busy 1 0 0
  have hrst : NoResetFor (drawnLatency s c) (accept c (clockTick s)) := fun j hj => by
    have hpins : pinsAt (accept c (clockTick s)) j = pinsAt s (j + 1) := pinsAt_clockTick s j
    rw [hpins]; exact hnoReset (j + 1) (Nat.succ_lt_succ hj)
  refine ⟨one_le_drawnLatency s c, fun j hj => ?_, ?_⟩
  · have hwait := runsTo_waitEdges (s := accept c (clockTick s)) j hseen hbusy rfl hj fun k hk => hrst k (hk.trans hj)
    refine ⟨_, (runsTo_succ j s _ hstep _).2 hwait, rfl, hbusy, packStatus_valid 1 0 0, packStatus_cause 1 0 0,
      waitEdges_rspDone j rfl, reqReady_of_busy 0 _ hbusy, rfl, rfl, rfl⟩
  · have hrun := runsTo_complete (s := accept c (clockTick s)) hseen hbusy rfl (one_le_drawnLatency s c) hrst
    refine ⟨_, (runsTo_succ _ s _ hstep _).2 hrun, complete_pend _ _, complete_busy _ _, complete_reserved _ _,
      complete_rspDone _ _, (reqReady_eq_one_iff _ _).2 ⟨rfl, complete_busy _ _⟩, ?_⟩
    cases evalCommand c.op (operandA c) (operandB c) with
    | result r sg => exact ⟨rfl, rfl, rfl, packStatus_cause 0 1 0, packStatus_valid 0 1 0⟩
    | raised k => exact ⟨rfl, rfl, rfl, packStatus_cause 0 0 _, packStatus_valid 0 0 _⟩

end Sys2Proof.Machine
end

section
/-! Every abstract step is taken (R23): the pins that bring each of them about, and the waiting before a `Complete`. -/

namespace Sys2Proof.Machine

theorem busy_of_absStep_accept {op : Opcode} {a b : Word} {s : State} {x : AbsState}
    (h : absStep (.accept op a b) (abstraction s) = some x) : busyField s.status = 0 := by
  refine (bit_cases _).resolve_right fun hbusy => ?_
  simp [absStep, abstraction, hbusy] at h

theorem pending_of_absStep_complete {s : State} {x : AbsState} (h : absStep .complete (abstraction s) = some x) :
    busyField s.status = 1 ∧ ∃ c, s.pend = some c := by
  cases hpend : s.pend with
  | none => simp [absStep, abstraction, hpend] at h
  | some c =>
    refine ⟨(bit_cases _).resolve_left fun hidle => ?_, c, rfl⟩
    simp [absStep, abstraction, hpend, hidle] at h

theorem quietFor_zero (s : State) : QuietFor 0 s := by
  intro k hk
  obtain rfl := Nat.le_zero.1 hk
  exact ⟨s, (runsTo_zero s s).2 rfl, rfl, fun h => absurd h (Nat.lt_irrefl 0)⟩

/-- The edges before the completion edge of a pending command are quiet. -/
theorem quietFor_waiting {c : Command} {s : State} (hseen : s.resetSeen = true) (hbusy : busyField s.status = 1)
    (hpend : s.pend = some c) (hedges : 1 ≤ s.edgesLeft) (hrst : NoResetFor s.edgesLeft s) :
    QuietFor (s.edgesLeft - 1) s := by
  intro k hk
  have hlt : k < s.edgesLeft := by omega
  refine ⟨waitEdges k s, runsTo_waitEdges k hseen hbusy hpend hlt fun j hj => hrst j (hj.trans hlt),
    abstraction_waitEdges k s, fun hk => edgeEvent_count _ ?_ hbusy ?_⟩
  · rw [pinsAt_waitEdges]; exact hrst k hlt
  · simp only [waitEdges_edgesLeft]; omega

/-- After some number of quiet edges from `s`, the next edge is the step `e` and ends in `x`. -/
def Realised (e : AbsEvent) (x : AbsState) (s : State) : Prop :=
  ∃ (n : Nat) (t u : State), QuietFor n s ∧ RunsTo n s t ∧ edgeEvent t = some e ∧ step t = .next u ∧ abstraction u = x

/-- An edge that is an enabled abstract step ends in that step's one result, by the simulation. -/
theorem step_of_edgeEvent {t : State} {e : AbsEvent} {x : AbsState} (hseen : t.resetSeen = true)
    (hevent : edgeEvent t = some e) (habs : absStep e (abstraction t) = some x) :
    ∃ u, step t = .next u ∧ abstraction u = x := by
  obtain ⟨u, hstep⟩ := step_next t hseen
  have hsim := absStep_of_edgeOf_some (hevent ▸ edgeOf_step hseen hstep)
  exact ⟨u, hstep, Option.some.inj (hsim.symm.trans habs)⟩

theorem realised_at_once {s : State} {e : AbsEvent} {x : AbsState} (hseen : s.resetSeen = true)
    (hevent : edgeEvent s = some e) (habs : absStep e (abstraction s) = some x) : Realised e x s := by
  obtain ⟨u, hstep, hu⟩ := step_of_edgeEvent hseen hevent habs
  exact ⟨0, s, u, quietFor_zero s, (runsTo_zero s s).2 rfl, hevent, hstep, hu⟩

/-- `Complete` comes when the pending command's edges are over, as many of them as there are. -/
theorem complete_realised {c : Command} {s : State} {x : AbsState} (hseen : s.resetSeen = true)
    (hbusy : busyField s.status = 1) (hpend : s.pend = some c) (hedges : 1 ≤ s.edgesLeft)
    (hrst : NoResetFor s.edgesLeft s) (habs : absStep .complete (abstraction s) = some x) :
    Realised .complete x s := by
  have hlt : s.edgesLeft - 1 < s.edgesLeft := Nat.sub_one_lt_of_le hedges le_rfl
  have hevent := edgeEvent_complete (waitEdges_completesNext hseen hbusy hpend (hrst _ hlt))
  rw [← abstraction_waitEdges (s.edgesLeft - 1) s] at habs
  obtain ⟨u, hstep, hu⟩ := step_of_edgeEvent (t := waitEdges (s.edgesLeft - 1) s) hseen hevent habs
  exact ⟨_, _, u, quietFor_waiting hseen hbusy hpend hedges hrst,
    runsTo_waitEdges _ hseen hbusy hpend hlt fun k hk => hrst k (hk.trans hlt), hevent, hstep, hu⟩

/-- The event of an edge at which the pins show the command with these operands. -/
theorem edgeEvent_commandOf {s : State} {op : Opcode} {a b : Word} (hbusy : busyField s.status = 0)
    (hpins : pinsAt s 0 = { rst := 0, reqValid := 1, cmd := commandOf op a b }) :
    edgeEvent s = some (.accept op a b) := by
  rw [edgeEvent_accept s (by rw [hpins]) hbusy (by rw [hpins]), hpins, operandA_commandOf, operandB_commandOf]
  rfl

/-- Settles O45: `rst = 1` for `Reset`, the command on the pins for `Accept`, and an idle host for `Complete`. -/
theorem abstractStepsAreRealised : Obligations.AbstractStepsAreRealised := by
  rintro s e x ⟨hseen, -, -, hedges, -⟩ habs
  suffices h : ∃ pins, Realised e x { s with inputs := pins } by
    obtain ⟨pins, n, t, u, h⟩ := h
    exact ⟨pins, n, t, u, h⟩
  cases e with
  | reset => exact ⟨[{ PinSample.idle with rst := 1 }], realised_at_once hseen rfl habs⟩
  | accept op a b =>
    have hbusy := busy_of_absStep_accept habs
    exact ⟨[{ rst := 0, reqValid := 1, cmd := commandOf op a b }],
      realised_at_once hseen (edgeEvent_commandOf hbusy rfl) habs⟩
  | complete =>
    obtain ⟨hbusy, c, hpend⟩ := pending_of_absStep_complete habs
    exact ⟨[], complete_realised hseen hbusy hpend (hedges (by simp [hpend])) (fun _ _ => rfl) habs⟩

end Sys2Proof.Machine
end

section
/-! The decoder and the encoder (R36 to R39), by the opcode map: what each `OPC` decodes to, and what a command that
decodes says of the operation. -/

namespace Sys2Proof.Machine

/-- Settles O2: the rows of the decoder's own table. -/
theorem opcodeMapSelectsOperation : Obligations.OpcodeMapSelectsOperation := by
  intro c
  refine ⟨?_, ?_, ?_, ?_, ?_, ?_, ?_, ?_, ?_⟩ <;> intro hop <;> simp [decode, hop]

/-- Settles O1: the table words, numbered as `commandOfBits` numbers them. -/
theorem tableWordsDecodeAsListed : Obligations.TableWordsDecodeAsListed :=
  ⟨by decide, by decide, by decide, by decide, by decide⟩

/-- Settles O4: the row of the operation's `OPC`, and the operands that the limbs of its command add up to. -/
theorem decodeOfEncode : Obligations.DecodeOfEncode := by
  intro i
  obtain ⟨hfi, hf, hhs, hds, hadd, hsub, hdas, hmul, hdiv⟩ := opcodeMapSelectsOperation (encode i)
  have hA : operandA (encode i) = (operandsOf i).1 := operandA_commandOf _ _ _
  have hB : operandB (encode i) = (operandsOf i).2 := operandB_commandOf _ _ _
  rw [hA] at hfi hf hhs hds
  rw [hA, hB] at hadd hsub hdas hmul hdiv
  cases i with
  | floorIntermediate a => exact hfi rfl
  | floor a => exact hf rfl
  | halfScaling a => exact hhs rfl
  | doubleScaling a => exact hds rfl
  | add a b => exact hadd rfl
  | sub a b => exact hsub rfl
  | diffAndSign a b => exact hdas rfl
  | mul a b => exact hmul rfl
  | div a b => exact hdiv rfl

/-- A command that decodes to `i` has the `OPC` of `i` and carries the operands `i` reads (R38, R41). -/
theorem opcodeOf_operandsOf_of_decode {c : Command} {i : Instr} (h : decode c = .ok i) :
    opcodeOf i = c.op ∧ operandsOf i = (operandA c, if c.unary then 0 else operandB c) := by
  rcases opcode_cases c.op with hop | hop | hop | hop | hop | hop | hop | hop | hop | hillegal
  iterate 9
    simp only [decode, hop] at h
    cases h
    simp [opcodeOf, operandsOf, Command.unary, hop]
  obtain ⟨e, he⟩ := decode_illegal c hillegal
  cases he.symm.trans h

/-- The canonical command, by its operands: B is 0 where the operation is unary (R42). -/
theorem canonical_eq_commandOf (c : Command) :
    c.canonical = commandOf c.op (operandA c) (if c.unary then 0 else operandB c) := by
  cases hunary : c.unary with
  | false => simp [Command.canonical, hunary, commandOf_operands]
  | true =>
    have hlo : lowLimb 0 = 0 := by decide
    have hhi : highLimb 0 = 0 := by decide
    simp only [Command.canonical, hunary, if_true, commandOf, operandA, lowLimb_assemble, highLimb_assemble, hlo, hhi]

/-- Settles O5: the decoded operation has the command's `OPC` and operands, which make the canonical command. -/
theorem encodeOfDecode : Obligations.EncodeOfDecode := by
  intro c i h
  obtain ⟨hop, hoperands⟩ := opcodeOf_operandsOf_of_decode h
  rw [encode, hop, hoperands, canonical_eq_commandOf]

/-- The well-formed commands are those with an `OPC` of the map (R38). -/
theorem wellFormed_iff (c : Command) : c.wellFormed = true ↔ 1 ≤ c.op.toNat ∧ c.op.toNat ≤ 9 := by
  simp only [Command.wellFormed, Command.namesSomething, Command.notBoundedPow, Command.assigned, Bool.and_eq_true,
    bne_iff_ne, decide_eq_true_eq, ne_eq, ← BitVec.toNat_inj, BitVec.toNat_ofNat]
  omega

/-- No operand value of a well-formed command is refused (R37). -/
theorem exists_decode_of_wellFormed {c : Command} (h : c.wellFormed = true) : ∃ i, decode c = .ok i := by
  obtain ⟨hfi, hf, hhs, hds, hadd, hsub, hdas, hmul, hdiv⟩ := opcodeMapSelectsOperation c
  rcases opcode_cases c.op with hop | hop | hop | hop | hop | hop | hop | hop | hop | hillegal
  · exact ⟨_, hfi hop⟩
  · exact ⟨_, hf hop⟩
  · exact ⟨_, hhs hop⟩
  · exact ⟨_, hds hop⟩
  · exact ⟨_, hadd hop⟩
  · exact ⟨_, hsub hop⟩
  · exact ⟨_, hdas hop⟩
  · exact ⟨_, hmul hop⟩
  · exact ⟨_, hdiv hop⟩
  · rw [wellFormed_iff] at h
    rw [← BitVec.toNat_inj, BitVec.toNat_ofNat] at hillegal
    omega

/-- Settles O3: the value of two limbs, its limbs again, and no well-formed command rejected. -/
theorem operandsAssembleFromLimbs : Obligations.OperandsAssembleFromLimbs := fun _ =>
  ⟨assemble_toNat _ _, assemble_toNat _ _, lowLimb_assemble _ _, highLimb_assemble _ _, lowLimb_assemble _ _,
    highLimb_assemble _ _, exists_decode_of_wellFormed⟩

end Sys2Proof.Machine
end

section
/-! Acceptance and completion by the `OPC` (R39, R41): the illegal ones and the unary ones; and runs of any length from
a legal state. -/

namespace Sys2Proof.Machine

/-- The decoder rejects exactly the `OPC`s outside the map (R39). -/
theorem illegal_iff_decode_error (c : Command) : (c.op = 0x00#8 ∨ 0x0A ≤ c.op.toNat) ↔ ∃ e, decode c = .error e := by
  refine ⟨decode_illegal c, fun ⟨e, he⟩ => ?_⟩
  by_contra hlegal
  have hwf : c.wellFormed = true := by
    rw [wellFormed_iff]
    rw [← BitVec.toNat_inj, BitVec.toNat_ofNat] at hlegal
    omega
  obtain ⟨i, hi⟩ := exists_decode_of_wellFormed hwf
  cases he.symm.trans hi

/-- Settles O6: the acceptance edge reads no `OPC`, and the completion edge takes the fault `Exec` raises. -/
theorem illegalOpcodesFault : Obligations.IllegalOpcodesFault := by
  refine ⟨illegal_iff_decode_error, fun c s hillegal => ⟨fun haccepts => ?_, fun hcompletes => ?_⟩⟩
  · exact ⟨_, step_acceptsNext haccepts, rfl, by simp⟩
  · have hstep := step_completesNext hcompletes
    rw [evalCommand_illegal _ _ _ hillegal] at hstep
    exact ⟨_, hstep, complete_raised .illegalOpcode _⟩

/-- `Exec` of a unary `OPC` does not read B (R41). -/
theorem evalCommand_unary (op : Opcode) (a b b' : Word) (hlo : 0x01 ≤ op.toNat) (hhi : op.toNat ≤ 0x04) :
    evalCommand op a b = evalCommand op a b' := by
  have hop : op = 0x01#8 ∨ op = 0x02#8 ∨ op = 0x03#8 ∨ op = 0x04#8 := by
    simp only [← BitVec.toNat_inj, BitVec.toNat_ofNat]
    omega
  rcases hop with rfl | rfl | rfl | rfl <;> simp [evalCommand]

/-- A completion empties `PEND` and does not read it. -/
theorem complete_clockTick_pend (o : CmdOutcome) (s : State) (p : Option Command) :
    complete o (clockTick { s with pend := p }) = complete o (clockTick s) := by
  cases o <;> rfl

/-- Settles O7: both completion edges complete the one value `Exec` has for every B, and neither keeps `PEND`. -/
theorem unaryOperationsIgnoreB : Obligations.UnaryOperationsIgnoreB := by
  refine fun c bLo bHi s hlo hhi => ⟨fun haccepts => ⟨_, step_acceptsNext haccepts, rfl⟩, fun hcompletes => ?_⟩
  have hstep := step_completesNext hcompletes
  obtain ⟨hseen, hrst, hbusy, -, hedges⟩ := hcompletes
  have hother : CompletesNext { c with bLo := bLo, bHi := bHi }
      { s with pend := some { c with bLo := bLo, bHi := bHi } } := ⟨hseen, hrst, hbusy, rfl, hedges⟩
  rw [hstep, step_completesNext hother, complete_clockTick_pend,
    evalCommand_unary c.op (operandA c) (operandB c) (assemble bLo bHi) hlo hhi]
  rfl

/-- Every run from a legal state goes on, and ends in a legal state. -/
theorem exists_runsTo_of_legal (k : Nat) {s : State} (h : Legal s) : ∃ t, RunsTo k s t ∧ Legal t := by
  induction k generalizing s with
  | zero => exact ⟨s, (runsTo_zero s s).2 rfl, h⟩
  | succ k ih =>
    have ⟨hseen, _⟩ := h
    obtain ⟨u, hstep⟩ := step_next s hseen
    obtain ⟨t, hrun, ht⟩ := ih (legalStateKept s u h hstep)
    exact ⟨t, (runsTo_succ k s u hstep t).2 hrun, ht⟩

/-- Settles O33: the legal states are kept, and a step from each of them answers a next state. -/
theorem legalRunsNeverStop : Obligations.LegalRunsNeverStop := by
  intro s n hlegal k _
  obtain ⟨t, hrun, -⟩ := exists_runsTo_of_legal k hlegal
  exact ⟨t, hrun⟩

end Sys2Proof.Machine
end

section
/-! The value of an operand text (R42): digits written one after the other, most significant first. -/

namespace Sys2Proof.Machine

/-- One more digit at the end of a text of digits. -/
theorem digitsValue_concat {base v d : Nat} {t : List Char} {ch : Char} (ht : digitsValue base 0 t = some v)
    (hch : digitValue base ch = some d) : digitsValue base 0 (t ++ [ch]) = some (v * base + d) := by
  rw [digitsValue_append, ht]
  simp [digitsValue, hch]

theorem digitValue_digitChar : ∀ d < 10, digitValue 10 (Nat.digitChar d) = some d := by decide

theorem digitValue_hexDigit (n : Nat) : digitValue 16 (hexDigit n) = some (n % 16) := by
  have hsmall : ∀ d < 16, digitValue 16 ("0123456789abcdef".toList.getD d '0') = some d := by decide
  exact hsmall _ (Nat.mod_lt n (by decide))

theorem digitsValue_toDigits (n : Nat) : digitsValue 10 0 (Nat.toDigits 10 n) = some n := by
  induction n using Nat.strong_induction_on with
  | _ n ih =>
    rcases Nat.lt_or_ge n 10 with hlt | hge
    · rw [Nat.toDigits_of_lt_base hlt]
      simpa using digitsValue_concat (t := []) rfl (digitValue_digitChar n hlt)
    · have hlast := digitValue_digitChar (n % 10) (Nat.mod_lt n (by decide))
      rw [Nat.toDigits_of_base_le (by decide) hge, digitsValue_concat (ih (n / 10) (by omega)) hlast,
        Nat.div_add_mod']

theorem digitsValue_hexDigits (k n : Nat) (h : n < 16 ^ k) : digitsValue 16 0 (hexDigits k n) = some n := by
  induction k generalizing n with
  | zero =>
    obtain rfl : n = 0 := by simpa using h
    rfl
  | succ k ih =>
    have hrest : n / 16 < 16 ^ k := Nat.div_lt_of_lt_mul (by rwa [Nat.pow_succ'] at h)
    rw [hexDigits, digitsValue_concat (ih (n / 16) hrest) (digitValue_hexDigit n), Nat.div_add_mod']

/-- A text without the letter `x` is no hexadecimal literal: it is read in decimal. -/
theorem literalValue_decimal {t : List Char} (hne : t ≠ []) (hx : 'x' ∉ t) : literalValue t = digitsValue 10 0 t := by
  unfold literalValue
  split
  · exact absurd rfl hne
  · simp at hx
  · simp at hx
  · rfl

theorem literalValue_toDigits (n : Nat) : literalValue (Nat.toDigits 10 n) = some n := by
  have hx : 'x' ∉ Nat.toDigits 10 n := fun hmem =>
    absurd (Nat.isDigit_of_mem_toDigits (by decide) le_rfl hmem) (by decide)
  rw [literalValue_decimal Nat.toDigits_ne_nil hx, digitsValue_toDigits]

theorem literalValue_hex {t : List Char} (hne : t ≠ []) : literalValue ('0' :: 'x' :: t) = digitsValue 16 0 t := by
  cases t with
  | nil => exact absurd rfl hne
  | cons ch t => rfl

theorem literalValue_hexDigits {k n : Nat} (hk : 0 < k) (h : n < 16 ^ k) :
    literalValue ('0' :: 'x' :: hexDigits k n) = some n := by
  have hne : hexDigits k n ≠ [] := by
    cases k with
    | zero => exact absurd hk (Nat.lt_irrefl 0)
    | succ k => simp [hexDigits]
  rw [literalValue_hex hne, digitsValue_hexDigits k n h]

/-- A literal is read before a host variable of that name (log entry 9), and is an operand below 2^256. -/
theorem operandValue_of_literal (vars : List (List Char × Word)) {t : List Char} {n : Nat}
    (h : literalValue t = some n) :
    operandValue vars t = if n < 2 ^ 256 then some (BitVec.ofNat 256 n) else none := by
  simp only [operandValue, h]

/-- Settles O46: the decimal and the hexadecimal digits of `n` are the literal `n`, and a text that is no literal is
looked up. -/
theorem operandTextsDenoteTheirValues : Obligations.OperandTextsDenoteTheirValues := by
  intro vars n
  have hdecimal := operandValue_of_literal vars (literalValue_toDigits n)
  refine ⟨fun hlt => ⟨?_, fun k hk hn => ?_⟩, fun hge => ?_, fun t ht => ?_⟩
  · rw [hdecimal, if_pos hlt]
  · rw [operandValue_of_literal vars (literalValue_hexDigits hk hn), if_pos hlt]
  · rw [hdecimal, if_neg (Nat.not_lt.mpr hge)]
  · simp only [operandValue, ht]

end Sys2Proof.Machine
end

section
/-! The assembler (R42, R43): what a line that assembles says of its command, and the lines of the two forms, whose
parts are texts without white space, comma or semicolon. -/

namespace Sys2Proof.Machine

/-- A line that assembles has a mnemonic of the table, and its command the mnemonic's `OPC`, with B = 0 where the
mnemonic takes one operand. -/
theorem exists_lookup_of_assembleLine {vars : List (List Char × Word)} {line : List Char} {c : Command}
    (h : assembleLine vars line = .ok c) :
    ∃ m op n va vb, lookupMnemonic m = some (op, n) ∧ c = commandOf op va vb ∧ (n = 1 ∧ vb = 0 ∨ n = 2) := by
  unfold assembleLine at h
  simp only at h
  split at h
  · split at h
    · cases h
    next op n hrow =>
    split at h
    next hn =>
      split at h
      · cases h
      next va _ =>
      cases h
      exact ⟨_, op, n, va, 0, hrow, rfl, .inl ⟨hn, rfl⟩⟩
    · cases h
  · split at h
    · cases h
    next op n hrow =>
    split at h
    next hn =>
      split at h
      next va vb _ _ =>
        cases h
        exact ⟨_, op, n, va, vb, hrow, rfl, .inr hn⟩
      · cases h
    · cases h
  · cases h

/-- The row of the mnemonic gives an `OPC` of the map, and B = 0 where it is unary (R42). -/
theorem assembled_canonical {vars : List (List Char × Word)} {line : List Char} {c : Command}
    (h : assembleLine vars line = .ok c) : c.wellFormed = true ∧ c.canonical = c := by
  obtain ⟨m, op, n, va, vb, hrow, rfl, hn⟩ := exists_lookup_of_assembleLine h
  obtain ⟨hlo, hhi, hone⟩ := lookupMnemonic_row m op n hrow
  refine ⟨(wellFormed_iff _).2 ⟨hlo, hhi⟩, ?_⟩
  rcases hn with ⟨-, rfl⟩ | rfl
  · exact Laws.Encoding.canonical_of_zeroB op va
  · have hgt : ¬ op.toNat ≤ 4 := fun hle => absurd (hone.2 hle) (by decide)
    have hbinary : (commandOf op va vb).unary = false := by simp [Command.unary, commandOf, hgt]
    simp [Command.canonical, hbinary]

/-- A text that can stand as an operand is one word. -/
theorem wordsOf_token {t : List Char} (h : OperandToken t) : wordsOf t = [t] := by
  obtain ⟨hne, hclean⟩ := h
  rw [wordsOf, splitAtEach_clean _ t fun ch hch => (hclean ch hch).1]
  simpa using hne

theorem wordsOf_blank (rest : List Char) : wordsOf (' ' :: rest) = wordsOf rest := by
  rw [wordsOf, ← List.nil_append (' ' :: rest), splitAtEach_append _ [] ' ' rest (by simp) (by decide)]
  rfl

theorem wordsOf_token_blank {t : List Char} (h : OperandToken t) (rest : List Char) :
    wordsOf (t ++ ' ' :: rest) = t :: wordsOf rest := by
  obtain ⟨hne, hclean⟩ := h
  rw [wordsOf, splitAtEach_append _ t ' ' rest (fun ch hch => (hclean ch hch).1) (by decide),
    List.filter_cons_of_pos (by simpa using hne)]
  rfl

/-- A mnemonic, a blank and an operand are two words. -/
theorem wordsOf_tokens {m ta : List Char} (hm : OperandToken m) (ha : OperandToken ta) :
    wordsOf (m ++ ' ' :: ta) = [m, ta] := by
  rw [wordsOf_token_blank hm, wordsOf_token ha]

/-- What stands before `;` is the code of a line (R42). -/
theorem takeWhile_code {code tail : List Char} (hcode : ∀ ch ∈ code, ch ≠ ';')
    (htail : tail = [] ∨ ∃ comment, tail = ';' :: comment) : (code ++ tail).takeWhile (· != ';') = code := by
  rw [List.takeWhile_append_of_pos fun ch hch => by simpa using hcode ch hch]
  rcases htail with rfl | ⟨comment, rfl⟩ <;> simp

/-- A mnemonic and an operand with a blank between them hold no separator of operands or comments. -/
theorem clean_of_tokens {m ta : List Char} (hm : OperandToken m) (ha : OperandToken ta) :
    ∀ ch ∈ m ++ ' ' :: ta, ch ≠ ',' ∧ ch ≠ ';' := by
  obtain ⟨-, hm⟩ := hm
  obtain ⟨-, ha⟩ := ha
  intro ch hch
  rcases List.mem_append.1 hch with hch | hch
  · exact (hm ch hch).2
  · rcases List.mem_cons.1 hch with rfl | hch
    · decide
    · exact (ha ch hch).2

section
variable {vars : List (List Char × Word)} {m ta tb tail : List Char} {op : Opcode} {va vb : Word}

/-- `MNEMONIC A` (R42). -/
theorem assembleLine_unary (hm : OperandToken m) (ha : OperandToken ta) (hrow : lookupMnemonic m = some (op, 1))
    (hva : operandValue vars ta = some va) (htail : tail = [] ∨ ∃ comment, tail = ';' :: comment) :
    assembleLine vars (m ++ ' ' :: ta ++ tail) = .ok (commandOf op va 0) := by
  have hclean := clean_of_tokens hm ha
  have hparts : splitAtEach (· == ',') (m ++ ' ' :: ta) = [m ++ ' ' :: ta] :=
    splitAtEach_clean _ _ fun ch hch => by simpa using (hclean ch hch).1
  rw [assembleLine, takeWhile_code (fun ch hch => (hclean ch hch).2) htail, hparts]
  simp [wordsOf_tokens hm ha, hrow, hva]

/-- `MNEMONIC A, B` (R42). -/
theorem assembleLine_binary (hm : OperandToken m) (ha : OperandToken ta) (hb : OperandToken tb)
    (hrow : lookupMnemonic m = some (op, 2)) (hva : operandValue vars ta = some va)
    (hvb : operandValue vars tb = some vb) (htail : tail = [] ∨ ∃ comment, tail = ';' :: comment) :
    assembleLine vars (m ++ ' ' :: ta ++ ',' :: ' ' :: tb ++ tail) = .ok (commandOf op va vb) := by
  have hcleanA := clean_of_tokens hm ha
  have hcleanB : ∀ ch ∈ ' ' :: tb, ch ≠ ',' ∧ ch ≠ ';' := fun ch hch =>
    clean_of_tokens hm hb ch (List.mem_append_right m hch)
  have hcode : ∀ ch ∈ m ++ ' ' :: ta ++ ',' :: ' ' :: tb, ch ≠ ';' := fun ch hch => by
    rcases List.mem_append.1 hch with hch | hch
    · exact (hcleanA ch hch).2
    · rcases List.mem_cons.1 hch with rfl | hch
      · decide
      · exact (hcleanB ch hch).2
  have hparts : splitAtEach (· == ',') (m ++ ' ' :: ta ++ ',' :: ' ' :: tb) = [m ++ ' ' :: ta, ' ' :: tb] := by
    rw [splitAtEach_append _ _ ',' _ (fun ch hch => by simpa using (hcleanA ch hch).1) (by decide),
      splitAtEach_clean _ _ fun ch hch => by simpa using (hcleanB ch hch).1]
  rw [assembleLine, takeWhile_code hcode htail, hparts]
  simp [wordsOf_tokens hm ha, wordsOf_blank, wordsOf_token hb, hrow, hva, hvb]

end

/-- White space and separators are no letters, so `toUpper` keeps them. -/
theorem operandToken_of_toUpper {m : List Char} (h : OperandToken (m.map Char.toUpper)) : OperandToken m := by
  obtain ⟨hne, hclean⟩ := h
  refine ⟨fun hm => hne (by rw [hm]; rfl), fun ch hch => ?_⟩
  obtain ⟨hspace, hcomma, hsemicolon⟩ := hclean _ (List.mem_map_of_mem hch)
  refine ⟨?_, ?_, ?_⟩
  · by_contra hws
    have hcases : ch = ' ' ∨ ch = '\t' ∨ ch = '\r' ∨ ch = '\n' := by
      simpa only [Char.isWhitespace, Bool.not_eq_false, Bool.or_eq_true, decide_eq_true_eq, or_assoc] using hws
    rcases hcases with rfl | rfl | rfl | rfl <;> exact absurd hspace (by decide)
  · rintro rfl
    exact hcomma (by decide)
  · rintro rfl
    exact hsemicolon (by decide)

/-- What the assembler needs of a mnemonic in capitals: it is one word, and its row is this `OPC` with `n` operands. -/
def MnemonicRow (n : Nat) (row : List Char × Opcode) : Prop :=
  OperandToken row.1 ∧ row.1.map Char.toUpper = row.1 ∧ lookupMnemonic row.1 = some (row.2, n)

theorem MnemonicRow.lookup {n : Nat} {row : List Char × Opcode} {m : List Char} (h : MnemonicRow n row)
    (hm : m.map Char.toUpper = row.1) : OperandToken m ∧ lookupMnemonic m = some (row.2, n) := by
  obtain ⟨htoken, hupper, hrow⟩ := h
  exact ⟨operandToken_of_toUpper (hm ▸ htoken), (lookupMnemonic_upper m row.1 hm hupper).trans hrow⟩

theorem mnemonicRow_unary : ∀ row ∈ [("FLOOR_INTERMEDIATE".toList, 0x01#8), ("FLOOR".toList, 0x02#8),
    ("HALF_SCALING".toList, 0x03#8), ("DOUBLE_SCALING".toList, 0x04#8)], MnemonicRow 1 row := by
  intro row hmem
  fin_cases hmem <;> exact ⟨by simp [OperandToken], by decide, by decide⟩

theorem mnemonicRow_binary : ∀ row ∈ [("ADD".toList, 0x05#8), ("SUB".toList, 0x06#8), ("DIFF_AND_SIGN".toList, 0x07#8),
    ("MUL".toList, 0x08#8), ("DIV".toList, 0x09#8)], MnemonicRow 2 row := by
  intro row hmem
  fin_cases hmem <;> exact ⟨by simp [OperandToken], by decide, by decide⟩

/-- Settles O8: the inversion of a line that assembles; and the two forms of a line, with the row of the mnemonic's
capitals. -/
theorem assembledLinesAreCanonicalCommands : Obligations.AssembledLinesAreCanonicalCommands := by
  refine ⟨fun vars line c => assembled_canonical, fun vars m ta tb tail va vb ha hb hva hvb htail =>
    ⟨fun row hmem hm => ?_, fun row hmem hm => ?_⟩⟩
  · obtain ⟨htoken, hrow⟩ := (mnemonicRow_unary row hmem).lookup hm
    exact assembleLine_unary htoken ha hrow hva htail
  · obtain ⟨htoken, hrow⟩ := (mnemonicRow_binary row hmem).lookup hm
    exact assembleLine_binary htoken ha hb hrow hva hvb htail

end Sys2Proof.Machine
end

section
/-! What each operation answers (40_scaling.md, 41_additive.md, 42_multiplicative.md), in the terms of claims: the value
it returns, or the fault it raises, from every state. -/

namespace Sys2Proof.Machine

/-- An `OPC` selects the operation that the decoder reads from every command with it. -/
theorem selects_of_decode {op : Opcode} {i : Command → Instr} (h : ∀ c, c.op = op → decode c = .ok (i c)) :
    Selects op i := fun c s hop hnext => stepRunsDecodedInstruction s c (i c) hnext (h c hop)

/-- The operation completes from `s` without fault, with the result value `r` and the sign bit `sg`. -/
def Returns (i : Instr) (s : State) (r : Nat) (sg : Bit) : Prop := ∃ t, exec i s = .next t ∧ CompletesWith s t r sg

section
variable {i : Instr} {s t : State}

theorem returns_of_result {x : Nat} {sg : Bit}
    (hexec : exec i s = .next (complete (.result (BitVec.ofNat 256 x) sg) s)) (hx : x < 2 ^ 256) : Returns i s x sg :=
  ⟨_, hexec, complete_result x sg s hx⟩

theorem raises_of_raised {k : Cause} (hexec : exec i s = .next (complete (.raised k) s)) : Raises i s (causeCode k) :=
  ⟨_, hexec, complete_raised k s⟩

theorem Returns.resValue_eq {r : Nat} {sg : Bit} (h : Returns i s r sg) (hexec : exec i s = .next t) :
    resValue t = r := by
  obtain ⟨u, hu, hcompletes⟩ := h
  obtain rfl := Host.Outcome.next.inj (hu.symm.trans hexec)
  exact hcompletes.res

/-- After a fault, `VALID` is 0 (R62). -/
theorem Raises.valid_ne_one {code : BitVec 4} (h : Raises i s code) (hexec : exec i s = .next t) :
    validField t.status ≠ 1 := by
  obtain ⟨u, hu, hfaults⟩ := h
  obtain rfl := Host.Outcome.next.inj (hu.symm.trans hexec)
  rw [hfaults.valid]
  decide

end

theorem div_lt_word (a : Word) (d : Nat) : a.toNat / d < 2 ^ 256 := (Nat.div_le_self _ d).trans_lt a.isLt

/-- R46 -/
theorem returns_floorIntermediate (a : Word) (s : State) : Returns (.floorIntermediate a) s (a.toNat / 10 ^ 18) 0 :=
  returns_of_result rfl (div_lt_word a _)

/-- R47 -/
theorem returns_floor (a : Word) (s : State) : Returns (.floor a) s (a.toNat / 10 ^ 18 * 10 ^ 18) 0 :=
  returns_of_result rfl ((Nat.div_mul_le_self _ _).trans_lt a.isLt)

/-- R48 -/
theorem returns_halfScaling (a : Word) (s : State) : Returns (.halfScaling a) s (a.toNat / 10 ^ 9) 0 :=
  returns_of_result rfl (div_lt_word a _)

/-- R49 -/
theorem returns_doubleScaling {a : Word} (s : State) (h : a.toNat * 10 ^ 18 < 2 ^ 256) :
    Returns (.doubleScaling a) s (a.toNat * 10 ^ 18) 0 := by
  refine returns_of_result ?_ h
  rw [exec_doubleScaling, evalDoubleScaling, Config.scale, check256_inRange _ _ h]

/-- R49 -/
theorem raises_doubleScaling {a : Word} (s : State) (h : 2 ^ 256 ≤ a.toNat * 10 ^ 18) :
    Raises (.doubleScaling a) s 0x1 := by
  refine raises_of_raised (k := .overflow) ?_
  rw [exec_doubleScaling, evalDoubleScaling, Config.scale, check256_outOfRange _ _ h]

/-- R53 -/
theorem returns_add {a b : Word} (s : State) (h : a.toNat + b.toNat < 2 ^ 256) :
    Returns (.add a b) s (a.toNat + b.toNat) 0 := by
  refine returns_of_result ?_ h
  rw [exec_add, evalAdd, check256_inRange _ _ h]

/-- R53 -/
theorem raises_add {a b : Word} (s : State) (h : 2 ^ 256 ≤ a.toNat + b.toNat) : Raises (.add a b) s 0x1 := by
  refine raises_of_raised (k := .overflow) ?_
  rw [exec_add, evalAdd, check256_outOfRange _ _ h]

/-- R54 -/
theorem returns_sub {a b : Word} (s : State) (h : b.toNat ≤ a.toNat) :
    Returns (.sub a b) s (a.toNat - b.toNat) 0 := by
  refine returns_of_result ?_ ((Nat.sub_le _ _).trans_lt a.isLt)
  rw [exec_sub, evalSub, if_neg (Nat.not_lt.mpr h)]

/-- R54 -/
theorem raises_sub {a b : Word} (s : State) (h : a.toNat < b.toNat) : Raises (.sub a b) s 0x2 := by
  refine raises_of_raised (k := .underflow) ?_
  rw [exec_sub, evalSub, if_pos h]

/-- R55 -/
theorem returns_diffAndSign_of_le {a b : Word} (s : State) (h : b.toNat ≤ a.toNat) :
    Returns (.diffAndSign a b) s (a.toNat - b.toNat) 0 := by
  refine returns_of_result ?_ ((Nat.sub_le _ _).trans_lt a.isLt)
  rw [exec_diffAndSign, evalDiffAndSign, if_neg (mt (limbLess_iff_toNat_lt a b).1 (Nat.not_lt.mpr h))]

/-- R55 -/
theorem returns_diffAndSign_of_lt {a b : Word} (s : State) (h : a.toNat < b.toNat) :
    Returns (.diffAndSign a b) s (b.toNat - a.toNat) 1 := by
  refine returns_of_result ?_ ((Nat.sub_le _ _).trans_lt b.isLt)
  rw [exec_diffAndSign, evalDiffAndSign, if_pos ((limbLess_iff_toNat_lt a b).2 h)]

/-- R56 -/
theorem returns_mul {a b : Word} (s : State) (h : a.toNat / 10 ^ 9 * (b.toNat / 10 ^ 9) < 2 ^ 256) :
    Returns (.mul a b) s (a.toNat / 10 ^ 9 * (b.toNat / 10 ^ 9)) 0 := by
  refine returns_of_result ?_ h
  rw [exec_mul, evalMul, Config.halfScale, check256_inRange _ _ h]

/-- R56 -/
theorem raises_mul {a b : Word} (s : State) (h : 2 ^ 256 ≤ a.toNat / 10 ^ 9 * (b.toNat / 10 ^ 9)) :
    Raises (.mul a b) s 0x1 := by
  refine raises_of_raised (k := .overflow) ?_
  rw [exec_mul, evalMul, Config.halfScale, check256_outOfRange _ _ h]

/-- R57: DivisionByZero comes before Overflow. -/
theorem raises_div_of_zero (a : Word) {b : Word} (s : State) (hb : b.toNat = 0) : Raises (.div a b) s 0x3 := by
  refine raises_of_raised (k := .divisionByZero) ?_
  rw [exec_div, evalDiv, if_pos hb]

/-- R57 -/
theorem returns_div {a b : Word} (s : State) (hb : b.toNat ≠ 0) (h : a.toNat * 10 ^ 18 < 2 ^ 256) :
    Returns (.div a b) s (a.toNat * 10 ^ 18 / b.toNat) 0 := by
  refine returns_of_result ?_ ((Nat.div_le_self _ _).trans_lt h)
  rw [exec_div, evalDiv, if_neg hb, Config.scale, check256_inRange _ _ h, BitVec.toNat_ofNat, Nat.mod_eq_of_lt h]

/-- R57 -/
theorem raises_div_of_overflow {a b : Word} (s : State) (hb : b.toNat ≠ 0) (h : 2 ^ 256 ≤ a.toNat * 10 ^ 18) :
    Raises (.div a b) s 0x1 := by
  refine raises_of_raised (k := .overflow) ?_
  rw [exec_div, evalDiv, if_neg hb, Config.scale, check256_outOfRange _ _ h]

end Sys2Proof.Machine
end

section
/-! The scaling operations (40_scaling.md R44 to R49) and the one rounding direction (R45). -/

namespace Sys2Proof.Machine

/-- Settles O11: the row of the decoder's table, and the value returned. -/
theorem floorIntermediateResult : Obligations.FloorIntermediateResult := by
  refine ⟨selects_of_decode fun c hop => ?_, returns_floorIntermediate⟩
  obtain ⟨hrow, -⟩ := opcodeMapSelectsOperation c
  exact hrow hop

/-- Settles O13: the row of the decoder's table, and the value returned. -/
theorem halfScalingResult : Obligations.HalfScalingResult := by
  refine ⟨selects_of_decode fun c hop => ?_, returns_halfScaling⟩
  obtain ⟨-, -, hrow, -⟩ := opcodeMapSelectsOperation c
  exact hrow hop

/-- Settles O12: the laws are those of `A // SCALE * SCALE` as a number. -/
theorem floorResult : Obligations.FloorResult := by
  refine ⟨selects_of_decode fun c hop => ?_, fun a s => ?_⟩
  · obtain ⟨-, hrow, -⟩ := opcodeMapSelectsOperation c
    exact hrow hop
  · obtain ⟨t, hexec, hcompletes⟩ := returns_floor a s
    have hres := hcompletes.res
    refine ⟨t, hexec, hcompletes, ?_⟩
    omega

/-- The largest value whose product with `SCALE` is in range is `T` (R49, R57). -/
theorem scale_overflow_iff (n : Nat) :
    2 ^ 256 ≤ n * 10 ^ 18 ↔ 115792089237316195423570985008687907853269984665640564039457 < n := by
  omega

/-- Settles O14: the value below 2^256 and the fault from there on, which is above `T`. -/
theorem doubleScalingResultOrOverflow : Obligations.DoubleScalingResultOrOverflow := by
  refine ⟨selects_of_decode fun c hop => ?_, fun a s =>
    ⟨returns_doubleScaling s, raises_doubleScaling s, scale_overflow_iff a.toNat⟩⟩
  obtain ⟨-, -, -, hrow, -⟩ := opcodeMapSelectsOperation c
  exact hrow hop

/-- The quotient that division gives is the floor (R45). -/
theorem div_isFloor (n : Nat) {d : Nat} (hd : 0 < d) : n / d * d ≤ n ∧ n < (n / d + 1) * d :=
  ⟨Nat.div_mul_le_self n d, by rw [Nat.succ_mul]; exact Nat.lt_div_mul_add hd⟩

section
variable {a b : Word} {s t : State}

theorem resValue_doubleScaling (hexec : exec (.doubleScaling a) s = .next t) (hvalid : validField t.status = 1) :
    resValue t = a.toNat * 10 ^ 18 :=
  have hlt := Nat.lt_of_not_le fun hge => (raises_doubleScaling s hge).valid_ne_one hexec hvalid
  (returns_doubleScaling s hlt).resValue_eq hexec

theorem resValue_add (hexec : exec (.add a b) s = .next t) (hvalid : validField t.status = 1) :
    resValue t = a.toNat + b.toNat :=
  have hlt := Nat.lt_of_not_le fun hge => (raises_add s hge).valid_ne_one hexec hvalid
  (returns_add s hlt).resValue_eq hexec

theorem resValue_sub (hexec : exec (.sub a b) s = .next t) (hvalid : validField t.status = 1) :
    resValue t + b.toNat = a.toNat := by
  have hle := Nat.le_of_not_lt fun hlt => (raises_sub s hlt).valid_ne_one hexec hvalid
  rw [(returns_sub s hle).resValue_eq hexec, Nat.sub_add_cancel hle]

/-- The smaller operand and the magnitude of the difference add up to the larger one (R55). -/
theorem resValue_diffAndSign (hexec : exec (.diffAndSign a b) s = .next t) :
    resValue t + min a.toNat b.toNat = max a.toNat b.toNat := by
  rcases Nat.lt_or_ge a.toNat b.toNat with hlt | hge
  · rw [(returns_diffAndSign_of_lt s hlt).resValue_eq hexec]
    omega
  · rw [(returns_diffAndSign_of_le s hge).resValue_eq hexec]
    omega

theorem resValue_mul (hexec : exec (.mul a b) s = .next t) (hvalid : validField t.status = 1) :
    resValue t = a.toNat / 10 ^ 9 * (b.toNat / 10 ^ 9) :=
  have hlt := Nat.lt_of_not_le fun hge => (raises_mul s hge).valid_ne_one hexec hvalid
  (returns_mul s hlt).resValue_eq hexec

/-- A DIV that completes without fault has a divisor, and a scaled dividend in range (R57). -/
theorem resValue_div (hexec : exec (.div a b) s = .next t) (hvalid : validField t.status = 1) :
    b.toNat ≠ 0 ∧ resValue t = a.toNat * 10 ^ 18 / b.toNat :=
  have hb : b.toNat ≠ 0 := fun hzero => (raises_div_of_zero a s hzero).valid_ne_one hexec hvalid
  have hlt := Nat.lt_of_not_le fun hge => (raises_div_of_overflow s hb hge).valid_ne_one hexec hvalid
  ⟨hb, (returns_div s hb hlt).resValue_eq hexec⟩

end

/-- Settles O21: each division's value is the floor quotient, and the other operations' values are exact. -/
theorem roundingIsFloor : Obligations.RoundingIsFloor := by
  intro a b s t hvalid
  have hscale := div_isFloor a.toNat (d := 10 ^ 18) (by decide)
  have hhalfA := div_isFloor a.toNat (d := 10 ^ 9) (by decide)
  have hhalfB := div_isFloor b.toNat (d := 10 ^ 9) (by decide)
  refine ⟨fun hexec => ?_, fun hexec => ?_, fun hexec => ?_, fun hexec => ?_, fun hexec => ?_,
    fun hexec => resValue_doubleScaling hexec hvalid, fun hexec => resValue_add hexec hvalid,
    fun hexec => resValue_sub hexec hvalid, resValue_diffAndSign⟩
  · rw [(returns_floorIntermediate a s).resValue_eq hexec]
    exact hscale
  · exact ⟨_, (returns_floor a s).resValue_eq hexec, hscale⟩
  · rw [(returns_halfScaling a s).resValue_eq hexec]
    exact hhalfA
  · obtain ⟨hloA, hhiA⟩ := hhalfA
    exact ⟨_, _, resValue_mul hexec hvalid, hloA, hhiA, hhalfB⟩
  · obtain ⟨hb, hres⟩ := resValue_div hexec hvalid
    rw [hres]
    exact div_isFloor _ (Nat.pos_of_ne_zero hb)

end Sys2Proof.Machine
end

section
/-! The limb datapath (41_additive.md R50 to R52). The adder and the subtractor each keep one equation between their
outputs and their operands; what the carry and the borrow say is read off it. -/

namespace Sys2Proof.Machine

/-- The limbs of a value add up to it (R7, R37). -/
theorem toNat_eq_limbs (v : Word) : v.toNat = (lowLimb v).toNat + (highLimb v).toNat * 2 ^ 128 := by
  rw [← assemble_toNat, assemble_limbs]

/-- The adder loses nothing: what its sum does not hold is in the carry (R50). -/
theorem limbAdd_exact (a b : Word) :
    (limbAdd a b).1.toNat + (limbAdd a b).2.toNat * 2 ^ 256 = a.toNat + b.toNat := by
  rw [toNat_eq_limbs a, toNat_eq_limbs b]
  simp only [limbAdd, BitVec.toNat_ofNat]
  omega

/-- The subtractor loses nothing: what the minuend lacks is in the borrow (R51). -/
theorem limbSub_exact (a b : Word) :
    (limbSub a b).1.toNat + b.toNat = a.toNat + (limbSub a b).2.toNat * 2 ^ 256 := by
  rw [toNat_eq_limbs a, toNat_eq_limbs b]
  simp only [limbSub, BitVec.toNat_ofNat]
  -- the two borrows, of the low and of the high limb
  split_ifs <;> omega

/-- Settles O23: the sum is below 2^256, so the equation of the adder leaves one value for each carry. -/
theorem limbAdderCarry : Obligations.LimbAdderCarry := by
  intro a b
  have hexact := limbAdd_exact a b
  simp only [← BitVec.toNat_inj, BitVec.ofNat_eq_ofNat, BitVec.toNat_ofNat]
  omega

/-- Settles O24: the difference is below 2^256, so the equation of the subtractor leaves one value for each borrow. -/
theorem limbSubtractorBorrow : Obligations.LimbSubtractorBorrow := by
  intro a b
  have hexact := limbSub_exact a b
  simp only [← BitVec.toNat_inj, BitVec.ofNat_eq_ofNat, BitVec.toNat_ofNat]
  omega

/-- Settles O25: the comparator and the borrow both say `A < B`. -/
theorem limbComparatorOrder : Obligations.LimbComparatorOrder := by
  intro a b
  obtain ⟨hborrow, -⟩ := limbSubtractorBorrow a b
  exact ⟨limbLess_iff_toNat_lt a b, (limbLess_iff_toNat_lt a b).trans hborrow.symm⟩

end Sys2Proof.Machine
end

section
/-! The additive operations (41_additive.md R53 to R55): what each one returns or raises, and what the order of its
operands does. -/

namespace Sys2Proof.Machine

theorem evalAdd_comm (a b : Word) : evalAdd a b = evalAdd b a := by rw [evalAdd, evalAdd, Nat.add_comm]

/-- Settles O15: the sum below 2^256 and the fault from there on; the operands enter by their sum alone. -/
theorem addResultOrOverflow : Obligations.AddResultOrOverflow := by
  refine ⟨selects_of_decode fun c hop => ?_, fun a b s => ⟨returns_add s, raises_add s, ?_⟩⟩
  · obtain ⟨-, -, -, -, hrow, -⟩ := opcodeMapSelectsOperation c
    exact hrow hop
  · rw [exec_add, exec_add, evalAdd_comm]

/-- Settles O16: the difference where there is one, and the fault where `A < B`. -/
theorem subResultOrUnderflow : Obligations.SubResultOrUnderflow := by
  refine ⟨selects_of_decode fun c hop => ?_, fun _ _ s => ⟨returns_sub s, raises_sub s⟩⟩
  obtain ⟨-, -, -, -, -, hrow, -⟩ := opcodeMapSelectsOperation c
  exact hrow hop

/-- The smaller operand first gives the sign 1 and the larger one first the sign 0, with one magnitude (R55). -/
theorem diffAndSign_swap_of_lt {a b : Word} (s : State) (h : a.toNat < b.toNat) :
    ∃ t u, exec (.diffAndSign a b) s = .next t ∧ exec (.diffAndSign b a) s = .next u ∧
      resValue u = resValue t ∧ t.sign = 1 ∧ u.sign = 0 := by
  obtain ⟨t, hexecT, hcompletesT⟩ := returns_diffAndSign_of_lt s h
  obtain ⟨u, hexecU, hcompletesU⟩ := returns_diffAndSign_of_le s h.le
  exact ⟨t, u, hexecT, hexecU, hcompletesU.res.trans hcompletesT.res.symm, hcompletesT.sign, hcompletesU.sign⟩

/-- Settles O17: the larger operand less the smaller one in both cases; of two different operands one is the smaller. -/
theorem diffAndSignResult : Obligations.DiffAndSignResult := by
  refine ⟨selects_of_decode fun c hop => ?_, fun a b s =>
    ⟨returns_diffAndSign_of_le s, returns_diffAndSign_of_lt s, fun hne => ?_⟩⟩
  · obtain ⟨-, -, -, -, -, -, hrow, -⟩ := opcodeMapSelectsOperation c
    exact hrow hop
  · rcases Nat.lt_or_gt_of_ne (mt BitVec.eq_of_toNat_eq hne) with hlt | hgt
    · obtain ⟨t, u, hexecT, hexecU, hres, hsignT, hsignU⟩ := diffAndSign_swap_of_lt s hlt
      exact ⟨t, u, hexecT, hexecU, hres, by rw [hsignT, hsignU]; decide⟩
    · obtain ⟨t, u, hexecT, hexecU, hres, hsignT, hsignU⟩ := diffAndSign_swap_of_lt s hgt
      exact ⟨u, t, hexecU, hexecT, hres.symm, by rw [hsignT, hsignU]; decide⟩

end Sys2Proof.Machine
end

section
/-! The multiplicative operations (42_multiplicative.md R56 to R58) and the operations at zero (R60). -/

namespace Sys2Proof.Machine

theorem evalMul_comm (a b : Word) : evalMul a b = evalMul b a := by rw [evalMul, evalMul, Nat.mul_comm]

/-- `SCALE` is `HALF_SCALE * HALF_SCALE`, so a MUL by it cuts off what its half-scaling of A leaves over (R56). -/
theorem returns_mul_scale (a : Word) (s : State) :
    Returns (.mul a 1000000000000000000#256) s (a.toNat - a.toNat % 10 ^ 9) 0 := by
  have hproduct : a.toNat / 10 ^ 9 * ((1000000000000000000#256).toNat / 10 ^ 9) = a.toNat - a.toNat % 10 ^ 9 :=
    Nat.div_mul_self_eq_mod_sub_self
  rw [← hproduct]
  exact returns_mul s (hproduct ▸ (Nat.sub_le _ _).trans_lt a.isLt)

/-- Settles O18: the half-scaled product below 2^256 and the fault from there on; the operands enter by that product
alone. -/
theorem mulResultOrOverflow : Obligations.MulResultOrOverflow := by
  refine ⟨selects_of_decode fun c hop => ?_, fun a b s =>
    ⟨returns_mul s, raises_mul s, ?_, returns_mul_scale a s⟩⟩
  · obtain ⟨-, -, -, -, -, -, -, hrow, -⟩ := opcodeMapSelectsOperation c
    exact hrow hop
  · rw [exec_mul, exec_mul, evalMul_comm]

/-- Settles O19: the missing divisor first, then the scaled dividend out of range, which is above `T`, then the
quotient. -/
theorem divResultOrFault : Obligations.DivResultOrFault := by
  refine ⟨selects_of_decode fun c hop => ?_, fun a b s =>
    ⟨raises_div_of_zero a s, raises_div_of_overflow s, returns_div s, scale_overflow_iff a.toNat⟩⟩
  obtain ⟨-, -, -, -, -, -, -, -, hrow⟩ := opcodeMapSelectsOperation c
  exact hrow hop

/-- Each factor lies between its half-scaled value and the next one, so the product lies between theirs (R58). -/
theorem product_bounds (m n : Nat) {d : Nat} (hd : 0 < d) :
    m / d * (n / d) * (d * d) ≤ m * n ∧ m * n < (m / d + 1) * (n / d + 1) * (d * d) := by
  obtain ⟨hloM, hhiM⟩ := div_isFloor m hd
  obtain ⟨hloN, hhiN⟩ := div_isFloor n hd
  rw [Nat.mul_mul_mul_comm (m / d), Nat.mul_mul_mul_comm (m / d + 1)]
  exact ⟨Nat.mul_le_mul hloM hloN, Nat.mul_lt_mul'' hhiM hhiN⟩

/-- Settles O20: the bounds on the product of the operands, divided by `SCALE`; the upper factor
`(A // HALF_SCALE + 1) * (B // HALF_SCALE + 1)` is `r` and the allowed distance from it. -/
theorem mulRoundingBound : Obligations.MulRoundingBound := by
  intro a b s t hexec hvalid
  rw [resValue_mul hexec hvalid]
  obtain ⟨hlo, hhi⟩ := product_bounds a.toNat b.toNat (d := 10 ^ 9) (by decide)
  have hloQ : ((a.toNat / 10 ^ 9 : ℕ) : ℚ) * ((b.toNat / 10 ^ 9 : ℕ) : ℚ) ≤ a.toNat * b.toNat / 10 ^ 18 := by
    rw [le_div_iff₀ (by positivity)]
    exact_mod_cast hlo
  have hhiQ : (a.toNat : ℚ) * b.toNat / 10 ^ 18 <
      (((a.toNat / 10 ^ 9 : ℕ) : ℚ) + 1) * (((b.toNat / 10 ^ 9 : ℕ) : ℚ) + 1) := by
    rw [div_lt_iff₀ (by positivity)]
    exact_mod_cast hhi
  rw [Nat.cast_mul]
  refine ⟨sub_nonneg.2 hloQ, ?_, (Nat.le_div_iff_mul_le (by decide)).2 hlo⟩
  linarith

/-- Half-scaled, the operand 0 is 0, and so is the product (R60). -/
theorem returns_mul_zero (a : Word) (s : State) : Returns (.mul a 0) s 0 0 :=
  returns_mul (b := 0) s (by decide : 0 < 2 ^ 256)

/-- The dividend 0 is in range for every divisor, and its quotient is 0 (R60). -/
theorem returns_zero_div {b : Word} (s : State) (hb : b ≠ 0) : Returns (.div 0 b) s 0 0 := by
  have hquotient : (0 : Word).toNat * 10 ^ 18 / b.toNat = 0 := Nat.zero_div _
  rw [← hquotient]
  exact returns_div s (BitVec.toNat_ne_iff_ne.2 hb) (by decide)

/-- Settles O22: the value each operation returns, at zero operands; DIV finds no divisor there. -/
theorem zeroOperands : Obligations.ZeroOperands := by
  refine fun s => ⟨?_, raises_div_of_zero 0 s rfl, fun a => returns_mul_zero a s, fun _ => returns_zero_div s⟩
  simp only [List.forall_mem_cons]
  exact ⟨returns_floorIntermediate 0 s, returns_floor 0 s, returns_halfScaling 0 s,
    returns_doubleScaling s (by decide), returns_add s (by decide), returns_sub s le_rfl,
    returns_diffAndSign_of_le s le_rfl, returns_mul_zero 0 s, List.forall_mem_nil _⟩

end Sys2Proof.Machine
end

section
/-! The fault mechanism (60_exceptions.md R61 to R66): the edge after a fault, the overflow-trap comparator, and the
causes of each `OPC`. -/

namespace Sys2Proof.Machine

theorem edgeEvent_ne_complete_of_idle {s : State} (hbusy : busyField s.status = 0) : edgeEvent s ≠ some .complete := by
  simp only [edgeEvent, hbusy, if_true]
  split_ifs <;> simp

/-- No completion ends an idle cycle, so no pulse of `rsp_done` follows it (R21). -/
theorem rspDone_eq_zero_of_idle {s t : State} (hseen : s.resetSeen = true) (hbusy : busyField s.status = 0)
    (hstep : step s = .next t) : t.rspDone = 0 :=
  (bit_cases _).resolve_right fun hdone =>
    edgeEvent_ne_complete_of_idle hbusy ((rspDone_eq_one_iff_of_edgeOf (edgeOf_step hseen hstep)).1 hdone)

/-- Settles O28: the completion edge takes the fault of `Exec`, and leaves an idle block. -/
theorem faultMechanism : Obligations.FaultMechanism := by
  intro c s k hnext hraised
  have hstep := step_completesNext hnext
  rw [hraised] at hstep
  obtain ⟨hseen, -⟩ := hnext
  have hbusy := complete_busy (.raised k) (clockTick s)
  exact ⟨_, hstep, complete_raised k _, (reqReady_eq_one_iff _ _).2 ⟨rfl, hbusy⟩, fun u =>
    rspDone_eq_zero_of_idle hseen hbusy⟩

section
variable {i : Instr} {s t : State} {x r : Nat} {sg : Bit} {code : BitVec 4}

theorem Returns.not_raises (h : Returns i s r sg) : ¬ Raises i s code := fun hraises => by
  obtain ⟨t, hexec, hcompletes⟩ := h
  exact hraises.valid_ne_one hexec hcompletes.valid

theorem Returns.cause_eq (h : Returns i s r sg) (hexec : exec i s = .next t) : causeField t.status = 0x0 := by
  obtain ⟨u, hu, hcompletes⟩ := h
  obtain rfl := Host.Outcome.next.inj (hu.symm.trans hexec)
  exact hcompletes.cause

theorem Raises.cause_eq (h : Raises i s code) (hexec : exec i s = .next t) : causeField t.status = code := by
  obtain ⟨u, hu, hfaults⟩ := h
  obtain rfl := Host.Outcome.next.inj (hu.symm.trans hexec)
  exact hfaults.cause

/-- An operation that returns below 2^256 and raises from there on raises nowhere else (R9, R63). -/
theorem raises_iff_outOfRange (hreturns : x < 2 ^ 256 → Returns i s r sg) (hraises : 2 ^ 256 ≤ x → Raises i s code) :
    Raises i s code ↔ 2 ^ 256 ≤ x :=
  ⟨fun h => Nat.le_of_not_lt fun hlt => (hreturns hlt).not_raises h, hraises⟩

/-- Whichever side of 2^256 the comparator's input is on, the cause is none or the one raised there (R63, R64). -/
theorem cause_of_comparator (hreturns : x < 2 ^ 256 → Returns i s r sg) (hraises : 2 ^ 256 ≤ x → Raises i s code)
    (hexec : exec i s = .next t) : causeField t.status = 0x0 ∨ causeField t.status = code := by
  rcases Nat.lt_or_ge x (2 ^ 256) with hlt | hge
  · exact .inl ((hreturns hlt).cause_eq hexec)
  · exact .inr ((hraises hge).cause_eq hexec)

end

section
variable {a b : Word} {s t : State}

theorem raises_add_iff (s : State) : Raises (.add a b) s 0x1 ↔ 2 ^ 256 ≤ a.toNat + b.toNat :=
  raises_iff_outOfRange (returns_add s) (raises_add s)

theorem raises_doubleScaling_iff (s : State) : Raises (.doubleScaling a) s 0x1 ↔ 2 ^ 256 ≤ a.toNat * 10 ^ 18 :=
  raises_iff_outOfRange (returns_doubleScaling s) (raises_doubleScaling s)

theorem raises_mul_iff (s : State) : Raises (.mul a b) s 0x1 ↔ 2 ^ 256 ≤ a.toNat / 10 ^ 9 * (b.toNat / 10 ^ 9) :=
  raises_iff_outOfRange (returns_mul s) (raises_mul s)

theorem raises_div_iff (s : State) (hb : b ≠ 0) : Raises (.div a b) s 0x1 ↔ 2 ^ 256 ≤ a.toNat * 10 ^ 18 :=
  have hb := BitVec.toNat_ne_iff_ne.2 hb
  raises_iff_outOfRange (returns_div s hb) (raises_div_of_overflow s hb)

/-- DIFF_AND_SIGN has a result for every two operands (R55). -/
theorem exists_returns_diffAndSign (a b : Word) (s : State) : ∃ r sg, Returns (.diffAndSign a b) s r sg := by
  rcases Nat.lt_or_ge a.toNat b.toNat with hlt | hge
  · exact ⟨_, _, returns_diffAndSign_of_lt s hlt⟩
  · exact ⟨_, _, returns_diffAndSign_of_le s hge⟩

theorem cause_diffAndSign (hexec : exec (.diffAndSign a b) s = .next t) : causeField t.status = 0x0 := by
  obtain ⟨r, sg, hreturns⟩ := exists_returns_diffAndSign a b s
  exact hreturns.cause_eq hexec

theorem cause_sub (hexec : exec (.sub a b) s = .next t) : causeField t.status = 0x0 ∨ causeField t.status = 0x2 := by
  rcases Nat.lt_or_ge a.toNat b.toNat with hlt | hge
  · exact .inr ((raises_sub s hlt).cause_eq hexec)
  · exact .inl ((returns_sub s hge).cause_eq hexec)

/-- The missing divisor, or what the comparator says of the scaled dividend (R57, R65). -/
theorem cause_div (hexec : exec (.div a b) s = .next t) :
    causeField t.status = 0x0 ∨ causeField t.status = 0x3 ∨ causeField t.status = 0x1 := by
  by_cases hb : b.toNat = 0
  · exact .inr (.inl ((raises_div_of_zero a s hb).cause_eq hexec))
  · exact (cause_of_comparator (returns_div s hb) (raises_div_of_overflow s hb) hexec).imp_right .inr

theorem not_raises_overflow_sub (a b : Word) (s : State) : ¬ Raises (.sub a b) s 0x1 := by
  rintro ⟨t, hexec, hfaults⟩
  rcases cause_sub hexec with hcause | hcause
  · exact absurd (hfaults.cause.symm.trans hcause) (by decide)
  · exact absurd (hfaults.cause.symm.trans hcause) (by decide)

end

/-- R63's other five operations: no Overflow, and no result above both operands. -/
theorem neverOverflows (a b : Word) (s : State) :
    ∀ i ∈ [Instr.floorIntermediate a, .floor a, .halfScaling a, .sub a b, .diffAndSign a b],
      ¬ Raises i s 0x1 ∧ ∀ t, exec i s = .next t → validField t.status = 1 → resValue t ≤ max a.toNat b.toNat := by
  have hmax : a.toNat ≤ max a.toNat b.toNat := le_max_left _ _
  simp only [List.forall_mem_cons]
  refine ⟨⟨(returns_floorIntermediate a s).not_raises, fun t hexec _ => ?_⟩,
    ⟨(returns_floor a s).not_raises, fun t hexec _ => ?_⟩, ⟨(returns_halfScaling a s).not_raises, fun t hexec _ => ?_⟩,
    ⟨not_raises_overflow_sub a b s, fun t hexec hvalid => ?_⟩, ⟨?_, fun t hexec _ => ?_⟩, List.forall_mem_nil _⟩
  · rw [(returns_floorIntermediate a s).resValue_eq hexec]
    exact (Nat.div_le_self _ _).trans hmax
  · rw [(returns_floor a s).resValue_eq hexec]
    exact (Nat.div_mul_le_self _ _).trans hmax
  · rw [(returns_halfScaling a s).resValue_eq hexec]
    exact (Nat.div_le_self _ _).trans hmax
  · exact (Nat.le.intro (resValue_sub hexec hvalid)).trans hmax
  · obtain ⟨r, sg, hreturns⟩ := exists_returns_diffAndSign a b s
    exact hreturns.not_raises
  · exact Nat.le.intro (resValue_diffAndSign hexec)

/-- Settles O26: each operation with a comparator returns below 2^256 and raises from there on; the carry and `T` say
the same of its input. -/
theorem overflowComparatorInputs : Obligations.OverflowComparatorInputs := by
  intro a b s
  obtain ⟨hcarry, -⟩ := limbAdderCarry a b
  have hthreshold := scale_overflow_iff a.toNat
  exact ⟨raises_add_iff s, (raises_add_iff s).trans hcarry.symm, raises_doubleScaling_iff s,
    (raises_doubleScaling_iff s).trans hthreshold, raises_mul_iff s, raises_div_iff s,
    fun hb => (raises_div_iff s hb).trans hthreshold, neverOverflows a b s⟩

/-- The completion edge of a command is the operation its `OPC` selects (R38), so what is known of the operation's
next states is known of the edge's. -/
theorem Selects.exec_of_step {op : Opcode} {i : Command → Instr} {c : Command} {s t : State} (h : Selects op i)
    (hnext : CompletesNext c s) (hstep : step s = .next t) (hop : c.op = op) : exec (i c) (clockTick s) = .next t :=
  (h c s hop hnext).symm.trans hstep

/-- A fault the selected operation raises on these operands is the outcome of a command of the host (R64). -/
theorem Selects.exists_completion {op : Opcode} {i : Command → Instr} {code : BitVec 4} (h : Selects op i) (a b : Word)
    (hraises : ∀ s, Raises (i (commandOf op a b)) s code) :
    ∃ c s t, c.op = op ∧ CompletesNext c s ∧ step s = .next t ∧ causeField t.status = code := by
  have hnext := placeCommand_completesNext (commandOf op a b) State.reset
  obtain ⟨t, hexec, hfaults⟩ := hraises (clockTick (placeCommand (commandOf op a b) State.reset))
  exact ⟨_, _, t, rfl, hnext, (h _ _ rfl hnext).trans hexec, hfaults.cause⟩

/-- Settles O27: the causes of the operation each `OPC` selects; and for each cause two operands that raise it. -/
theorem causesPerOpcode : Obligations.CausesPerOpcode := by
  obtain ⟨hfi, -⟩ := floorIntermediateResult
  obtain ⟨hf, -⟩ := floorResult
  obtain ⟨hhs, -⟩ := halfScalingResult
  obtain ⟨hds, -⟩ := doubleScalingResultOrOverflow
  obtain ⟨hadd, -⟩ := addResultOrOverflow
  obtain ⟨hsub, -⟩ := subResultOrUnderflow
  obtain ⟨hdas, -⟩ := diffAndSignResult
  obtain ⟨hmul, -⟩ := mulResultOrOverflow
  obtain ⟨hdiv, -⟩ := divResultOrFault
  refine ⟨fun c s t hnext hstep => ⟨?_, ?_, fun hop => cause_sub (hsub.exec_of_step hnext hstep hop),
    fun hop => cause_div (hdiv.exec_of_step hnext hstep hop), fun hillegal => ?_⟩, ?_⟩
  · simp only [List.mem_cons, List.not_mem_nil, or_false]
    rintro (hop | hop | hop | hop)
    · exact (returns_floorIntermediate _ _).cause_eq (hfi.exec_of_step hnext hstep hop)
    · exact (returns_floor _ _).cause_eq (hf.exec_of_step hnext hstep hop)
    · exact (returns_halfScaling _ _).cause_eq (hhs.exec_of_step hnext hstep hop)
    · exact cause_diffAndSign (hdas.exec_of_step hnext hstep hop)
  · simp only [List.mem_cons, List.not_mem_nil, or_false]
    rintro (hop | hop | hop)
    · exact cause_of_comparator (returns_doubleScaling _) (raises_doubleScaling _) (hds.exec_of_step hnext hstep hop)
    · exact cause_of_comparator (returns_add _) (raises_add _) (hadd.exec_of_step hnext hstep hop)
    · exact cause_of_comparator (returns_mul _) (raises_mul _) (hmul.exec_of_step hnext hstep hop)
  · rw [step_completesNext hnext, evalCommand_illegal _ _ _ hillegal] at hstep
    cases hstep
    exact packStatus_cause 0 0 _
  · simp only [List.forall_mem_cons]
    exact ⟨hds.exists_completion (.allOnes 256) 0 fun s => raises_doubleScaling s (by decide),
      hadd.exists_completion (.allOnes 256) 1 fun s => raises_add s (by decide),
      hsub.exists_completion 0 1 fun s => raises_sub s (by decide),
      hmul.exists_completion (.allOnes 256) (.allOnes 256) fun s => raises_mul s (by decide),
      hdiv.exists_completion 1 0 fun s => raises_div_of_zero _ s (by decide),
      hdiv.exists_completion (.allOnes 256) 1 fun s => raises_div_of_overflow s (by decide) (by decide),
      List.forall_mem_nil _⟩

end Sys2Proof.Machine
end

section
/-! The idle block (70_reset_and_hazards.md R76): its edges only take the pins past, one clock tick each. -/

namespace Sys2Proof.Machine

/-- Any number of clock ticks keeps everything but the pins and the pulse of `rsp_done`. -/
theorem clockTick_iterate (n : Nat) (s : State) :
    clockTick^[n] s = { s with inputs := s.inputs.drop n, rspDone := if n = 0 then s.rspDone else 0 } := by
  induction n with
  | zero => rfl
  | succ n ih => rw [Function.iterate_succ_apply', ih]; simp [clockTick]

theorem pinsAt_clockTick_iterate (n k : Nat) (s : State) : pinsAt (clockTick^[n] s) k = pinsAt s (n + k) := by
  simp [clockTick_iterate, pinsAt]

/-- Without a reset and without a request, `n` edges of an idle block are `n` clock ticks (R76). -/
theorem runsTo_idle {s : State} (n : Nat) (hseen : s.resetSeen = true) (hbusy : busyField s.status = 0)
    (hpins : ∀ j, j < n → (pinsAt s j).rst = 0 ∧ (pinsAt s j).reqValid = 0) : RunsTo n s (clockTick^[n] s) := by
  induction n generalizing s with
  | zero => exact (runsTo_zero s s).2 rfl
  | succ n ih =>
    obtain ⟨hrst, hvalid⟩ := hpins 0 n.succ_pos
    have hrest : RunsTo n (clockTick s) (clockTick^[n] (clockTick s)) := ih hseen hbusy fun j hj => by
      rw [pinsAt_clockTick]
      exact hpins (j + 1) (Nat.succ_lt_succ hj)
    exact (runsTo_succ n s _ (step_idle s hrst hseen hbusy hvalid) _).2 hrest

/-- Settles O40: the clock ticks keep the registers, and the block they leave is ready for the request at the edge
after them. -/
theorem idleBlockHoldsRegisters : Obligations.IdleBlockHoldsRegisters := by
  intro s n hseen hbusy hpins
  have hrun := runsTo_idle n hseen hbusy hpins
  have hpin : pinsAt (clockTick^[n] s) 0 = pinsAt s n := pinsAt_clockTick_iterate n 0 s
  rw [clockTick_iterate] at hrun hpin
  refine ⟨_, hrun, rfl, rfl, rfl, rfl, rfl, fun hrst hvalid => ?_⟩
  rw [← hpin] at hrst hvalid ⊢
  have hstep := step_accept _ hrst hseen hbusy hvalid
  exact ⟨_, runsTo_add n 1 _ _ _ hrun (runsTo_one _ _ hstep), rfl, packStatus_busy 1 0 0⟩

end Sys2Proof.Machine
end

section
/-! Reset (70_reset_and_hazards.md R77 to R81): the reset edge, the idle edges after it, and the block before it. -/

namespace Sys2Proof.Machine

/-- The reset value of `STATUS`, in the spelling of R78. -/
theorem packStatus_zero : packStatus 0 0 0 = 0x00#8 := by decide

/-- `req_ready` is 0 while the host drives `rst` (R21, R80). -/
theorem reqReady_of_reset (s : State) : reqReady 1 s = 0 := rfl

theorem pinsAt_resetEdge (s : State) (n : Nat) : pinsAt (resetEdge s) n = pinsAt s n := rfl

/-- Settles O38: the reset edge reads nothing of the state but `rst`, and the fields it writes are R78's values. -/
theorem resetEdgeRestoresResetState : Obligations.ResetEdgeRestoresResetState := by
  intro s hrst
  refine ⟨?_, _, step_reset s hrst, rfl, rfl, rfl, packStatus_zero, rfl, rfl, ?_, rfl⟩
  · rw [hrst]
    exact reqReady_of_reset s
  · exact (reqReady_eq_one_iff 0 _).2 ⟨rfl, packStatus_busy 0 0 0⟩

/-- Settles O39: the reset edge leaves an idle block with an empty `PEND`, and the edges after it are clock ticks. -/
theorem resetDiscardsPendingCommand : Obligations.ResetDiscardsPendingCommand := by
  intro s n hrst hpins
  have hrun : RunsTo n (resetEdge (clockTick s)) (clockTick^[n] (resetEdge (clockTick s))) :=
    runsTo_idle n rfl (packStatus_busy 0 0 0) fun j hj => by
      rw [pinsAt_resetEdge, pinsAt_clockTick]
      exact hpins j hj
  rw [clockTick_iterate] at hrun
  exact ⟨_, (runsTo_succ n s _ (step_reset s hrst) _).2 hrun, rfl, rfl, rfl, packStatus_zero, rfl, ite_self 0⟩

/-- A command presented before the first reset edge is refused (U8). -/
theorem step_beforeReset_request (s : State) (hseen : s.resetSeen = false) (hrst : (pinsAt s 0).rst = 0)
    (hvalid : (pinsAt s 0).reqValid = 1) : step s = .refused .commandBeforeReset := by
  rw [step_beforeReset s hrst hseen, beforeResetEdge, if_pos hvalid]

/-- Without a command, an edge before the first reset edge leaves the registers unspecified (R81). -/
theorem step_beforeReset_quiet (s : State) (hseen : s.resetSeen = false) (hrst : (pinsAt s 0).rst = 0)
    (hvalid : (pinsAt s 0).reqValid = 0) : step s = .next (unspecifiedEdge (clockTick s)) := by
  simp [step_beforeReset s hrst hseen, beforeResetEdge, hvalid]

/-- Settles O41: the two edges before reset by `req_valid`, and the reset edge, which asks nothing of the registers it
finds. -/
theorem bootFromPowerOn : Obligations.BootFromPowerOn := by
  refine ⟨fun s hseen hrst => ⟨step_beforeReset_request s hseen hrst, fun hvalid => ?_⟩, fun p pins hrst => ?_⟩
  · exact ⟨_, step_beforeReset_quiet s hseen hrst hvalid, hseen⟩
  · exact ⟨_, step_reset (powerOn (p :: pins)) hrst, legal_resetEdge _, abstraction_resetEdge _, rfl⟩

end Sys2Proof.Machine
end

section
/-! The host's read of a result (R82): by `VALID`, and after each operation that ends or begins a command. -/

namespace Sys2Proof.Machine

theorem readResult_of_valid {s : State} (h : validField s.status = 1) : readResult s = .ok (resWord s, s.sign) :=
  if_pos h

theorem readResult_of_invalid {s : State} (h : validField s.status = 0) : readResult s = .error .resultNotValid := by
  simp [readResult, h]

theorem readResult_writeResult (r : Word) (sg : Bit) (s : State) : readResult (writeResult r sg s) = .ok (r, sg) := by
  have hres : resWord (writeResult r sg s) = r := assemble_limbs r
  rw [readResult_of_valid (packStatus_valid 0 1 0), hres, writeResult_sign]

theorem readResult_takeFault (k : Cause) (s : State) : readResult (takeFault k s) = .error .resultNotValid :=
  readResult_of_invalid (packStatus_valid 0 0 _)

theorem readResult_accept (c : Command) (s : State) : readResult (accept c s) = .error .resultNotValid :=
  readResult_of_invalid (packStatus_valid 1 0 0)

theorem readResult_resetEdge (s : State) : readResult (resetEdge s) = .error .resultNotValid :=
  readResult_of_invalid (packStatus_valid 0 0 0)

/-- Settles O42: the read by `VALID`, then after the operation that each kind of edge is made of. -/
theorem resultReadOnlyWhileValid : Obligations.ResultReadOnlyWhileValid := by
  refine ⟨fun s => ⟨readResult_of_valid, readResult_of_invalid, fun _ => ⟨rfl, rfl, rfl⟩⟩, readResult_of_invalid rfl,
    fun c s t haccepts hstep => ?_, fun s t hrst hstep => ?_, fun c s t hnext hstep => ?_⟩
  · rw [step_acceptsNext haccepts] at hstep
    cases hstep
    exact readResult_accept c _
  · rw [step_reset s hrst] at hstep
    cases hstep
    exact readResult_resetEdge _
  · rw [step_completesNext hnext] at hstep
    cases hstep
    cases evalCommand c.op (operandA c) (operandB c) with
    | result r sg => exact readResult_writeResult r sg _
    | raised k => exact readResult_takeFault k _

end Sys2Proof.Machine
end
